-- ==== Sys2Proof/Word.lean ====
section
/-! DEFINITION. The words of the block: 64-bit registers and command words, wire bytes, register numbers, byte counts, the
two payload widths and the two units (00_scope R5, R7, R9; 10_state R20, R23). -/

namespace Sys2Proof

/-- A host register or a command word (10_state R23, 30_encoding R85). -/
abbrev Word := BitVec 64

/-- A wire or buffer byte (00_scope R9). -/
abbrev Byte := BitVec 8

/-- A host register number (00_scope R7). -/
abbrev RegNo := BitVec 5

/-- A unit's byte counter, `cnt` (10_state R38, R39). -/
abbrev Count := BitVec 4

/-- The payload width W of an operation; no other width exists (00_scope R5). -/
inductive Width where
  | w32
  | w64
  deriving DecidableEq, Repr, Inhabited

/-- W as a number of bits. -/
def Width.bits : Width → Nat
  | .w32 => 32
  | .w64 => 64

/-- The two units of the block (00_scope R1, 10_state R20). -/
inductive UnitId where
  | enc
  | dec
  deriving DecidableEq, Repr, Inhabited

end Sys2Proof
end

