-- ==== Sys2Proof/Syntax.lean ====
section
/-! DEFINITION. The 16 commands of the block, one constructor per row of spec/opcode_table.json (30_encoding R87). A command
has no operand (R85, R90). -/

namespace Sys2Proof

/-- A command of the opcode map (30_encoding R87). -/
inductive Instr where
  /-- VENC.U32 (40_encoder R110). -/
  | vencU32
  /-- VENC.S32 (40_encoder R111). -/
  | vencS32
  /-- VENC.U64 (40_encoder R112). -/
  | vencU64
  /-- VENC.S64 (40_encoder R113). -/
  | vencS64
  /-- VENC.U32.BUF (40_encoder R114). -/
  | vencU32Buf
  /-- VENC.S32.BUF (40_encoder R115). -/
  | vencS32Buf
  /-- VENC.U64.BUF (40_encoder R116). -/
  | vencU64Buf
  /-- VENC.S64.BUF (40_encoder R117). -/
  | vencS64Buf
  /-- VDEC.U32 (41_decoder R160). -/
  | vdecU32
  /-- VDEC.S32 (41_decoder R161). -/
  | vdecS32
  /-- VDEC.U64 (41_decoder R162). -/
  | vdecU64
  /-- VDEC.S64 (41_decoder R163). -/
  | vdecS64
  /-- VDEC.U32.BUF (41_decoder R164). -/
  | vdecU32Buf
  /-- VDEC.S32.BUF (41_decoder R165). -/
  | vdecS32Buf
  /-- VDEC.U64.BUF (41_decoder R166). -/
  | vdecU64Buf
  /-- VDEC.S64.BUF (41_decoder R167). -/
  | vdecS64Buf
  deriving DecidableEq, Repr, Inhabited

end Sys2Proof
end

