-- ==== Sys2Proof/WellFormed.lean ====
section
/-! DEFINITION. Well-formedness. A command has no operand, so every `Instr` is well formed (30_encoding R90); what can be ill
formed is a command word, whose reserved bits 63:4 must be 0 (30_encoding R85). -/

namespace Sys2Proof

/-- The reserved field v[63:4] of a command word (30_encoding R85). -/
def reservedField (v : Word) : BitVec 60 := v.extractLsb' 4 60

/-- A command word is well formed when its reserved bits are all 0 (30_encoding R85). -/
def wordWf (v : Word) : Bool := reservedField v == 0#60

end Sys2Proof
end

