-- ==== Sys2Proof/Decode.lean ====
section
/-! DEFINITION. The command word: its decoder, from the opcode map (30_encoding R87), and its encoder, from the fields
S, W, B, D (30_encoding R85, R90). The two are written from different tables of the spec, so that a wrong row shows. -/

namespace Sys2Proof

/-- What a word written to CMD stands for: one of the 16 commands, or an illegal word and the unit that reports it
(30_encoding R87, R88). -/
inductive Decoded where
  | legal (i : Instr)
  | illegalCmd (u : UnitId)
  deriving DecidableEq, Repr

/-- The opcode map (30_encoding R87): the whole command word of each command. -/
def opcodeMap : List (Word × Instr) :=
  [(0x0#64, .vencU32), (0x1#64, .vencS32), (0x2#64, .vencU64), (0x3#64, .vencS64)]
  ++ [(0x4#64, .vencU32Buf), (0x5#64, .vencS32Buf), (0x6#64, .vencU64Buf), (0x7#64, .vencS64Buf)]
  ++ [(0x8#64, .vdecU32), (0x9#64, .vdecS32), (0xA#64, .vdecU64), (0xB#64, .vdecS64)]
  ++ [(0xC#64, .vdecU32Buf), (0xD#64, .vdecS32Buf), (0xE#64, .vdecU64Buf), (0xF#64, .vdecS64Buf)]

/-- The command whose row has the word `v`, if a row has it. -/
def lookupWord (v : Word) : List (Word × Instr) → Option Instr
  | [] => none
  | (m, i) :: rest => if v = m then some i else lookupWord v rest

/-- The unit a command word addresses: D = v[3] (30_encoding R85, R88). -/
def addressedUnit (v : Word) : UnitId := if v.getLsbD 3 then .dec else .enc

/-- Decoding is total: a command of the map, or an illegal word reported by the unit v[3] names (30_encoding R87, R89). -/
def decode (v : Word) : Decoded :=
  match lookupWord v opcodeMap with
  | some i => .legal i
  | none => .illegalCmd (addressedUnit v)

/-- S of a command: `.S` in its mnemonic (30_encoding R90). -/
def Instr.signed : Instr → Bool
  | .vencU32 => false | .vencS32 => true | .vencU64 => false | .vencS64 => true
  | .vencU32Buf => false | .vencS32Buf => true | .vencU64Buf => false | .vencS64Buf => true
  | .vdecU32 => false | .vdecS32 => true | .vdecU64 => false | .vdecS64 => true
  | .vdecU32Buf => false | .vdecS32Buf => true | .vdecU64Buf => false | .vdecS64Buf => true

/-- W of a command: `32` or `64` in its mnemonic (30_encoding R90). -/
def Instr.width : Instr → Width
  | .vencU32 => .w32 | .vencS32 => .w32 | .vencU64 => .w64 | .vencS64 => .w64
  | .vencU32Buf => .w32 | .vencS32Buf => .w32 | .vencU64Buf => .w64 | .vencS64Buf => .w64
  | .vdecU32 => .w32 | .vdecS32 => .w32 | .vdecU64 => .w64 | .vdecS64 => .w64
  | .vdecU32Buf => .w32 | .vdecS32Buf => .w32 | .vdecU64Buf => .w64 | .vdecS64Buf => .w64

/-- B of a command: `.BUF` in its mnemonic (30_encoding R90). -/
def Instr.buffer : Instr → Bool
  | .vencU32 => false | .vencS32 => false | .vencU64 => false | .vencS64 => false
  | .vencU32Buf => true | .vencS32Buf => true | .vencU64Buf => true | .vencS64Buf => true
  | .vdecU32 => false | .vdecS32 => false | .vdecU64 => false | .vdecS64 => false
  | .vdecU32Buf => true | .vdecS32Buf => true | .vdecU64Buf => true | .vdecS64Buf => true

/-- The unit that runs a command: `VENC` or `VDEC` in its mnemonic (30_encoding R90). -/
def Instr.unit : Instr → UnitId
  | .vencU32 => .enc | .vencS32 => .enc | .vencU64 => .enc | .vencS64 => .enc
  | .vencU32Buf => .enc | .vencS32Buf => .enc | .vencU64Buf => .enc | .vencS64Buf => .enc
  | .vdecU32 => .dec | .vdecS32 => .dec | .vdecU64 => .dec | .vdecS64 => .dec
  | .vdecU32Buf => .dec | .vdecS32Buf => .dec | .vdecU64Buf => .dec | .vdecS64Buf => .dec

/-- The 64-bit field with `b` at bit `k`. -/
def fieldAt (b : Bool) (k : Nat) : Word := (BitVec.ofBool b).setWidth 64 <<< k

/-- The command word of a command, from its fields S, W, B, D with bits 63:4 zero (30_encoding R85). -/
def encode (i : Instr) : Word :=
  fieldAt i.signed 0 ||| fieldAt (i.width == .w64) 1 ||| fieldAt i.buffer 2 ||| fieldAt (i.unit == .dec) 3

/-- The command the decoder reads from a table row's bits `w`. A command word is ONE 64-bit value moved by a write of CMD
(30_encoding R85, R88): it has no bytes in a memory and no second word, so bit k of `w` is bit k of the command word,
and every bit at or above `_nbits` is already 0 in `w` (log entry 11). -/
def decodeTableWord (_nbits w : Nat) : Option Instr :=
  if w < 2 ^ 64 then
    match decode (BitVec.ofNat 64 w) with
    | .legal i => some i
    | .illegalCmd _ => none
  else none

end Sys2Proof
end

