-- ==== Sys2Proof/Config.lean ====
section
/-! DEFINITION. What the outside of the block chooses: the kinds of agent step, the source's responses, and the free values
that stand for every choice the spec leaves open (93_implementation_defined U-5 to U-8). -/

namespace Sys2Proof

/-- One response of the byte source: a byte, or end-of-input (10_state R21). -/
inductive Response where
  | byte (b : Byte)
  | eoi
  deriving DecidableEq, Repr, Inhabited

/-- A host access that is not a whole-register access (20_memory R65, 93_implementation_defined U-2): narrower than 64
bits, or not by a register number. -/
inductive PartialAccess where
  | narrow (n : RegNo) (bits : Fin 64)
  | unnumbered
  deriving DecidableEq, Repr, Inhabited

/-- One agent step (10_state R20): every step of the block belongs to exactly one agent and is atomic (20_memory R69). -/
inductive Event where
  /-- The host reads register number `n` (10_state R36). -/
  | hostRead (n : RegNo)
  /-- The host writes `v` to register number `n` (10_state R37). -/
  | hostWrite (n : RegNo) (v : Word)
  /-- The host tries an access that is not a whole-register access (20_memory R65). -/
  | hostPartial (a : PartialAccess)
  /-- A turn of the encoder; `accepts` says whether the sink accepts a byte in it (40_encoder R107). -/
  | encoder (accepts : Bool)
  /-- A turn of the decoder; `answers` says whether the source gives a response in it (41_decoder R143). -/
  | decoder (answers : Bool)
  /-- The reset input (70_reset_and_hazards R230). -/
  | reset
  deriving DecidableEq, Repr, Inhabited

/-- FREE VALUE (log entry 2): the agent step taken when the agenda names none. Any enabled step of any agent may come
next (20_memory R69, 70_reset_and_hazards R240, 93_implementation_defined U-6, U-7). -/
opaque Config.freeEvent : Nat → Event

/-- FREE VALUE (log entry 4): what the source answers once the responses that State lists are used up
(93_implementation_defined U-5). -/
opaque Config.freeResponse : Nat → Response

/-- The OPEN parameter HOST_BASE (00_scope R8): where the platform places register 0. No rule reads it. -/
opaque Config.hostBase : Nat

/-- The host-bus byte address of register number `n` (00_scope R8). -/
def regAddress (n : RegNo) : Nat := Config.hostBase + 8 * n.toNat

end Sys2Proof
end

