-- ==== Sys2Proof/Machine/State.lean ====
section
/-! DEFINITION. The state of varint_codec as plain data (10_state R38, R39, R26), the environment's records beside it (the
bytes the sink has, the responses the source will give, what host reads returned, the agent steps that come next), the
reasons a step can stop, and the state after reset (10_state R42). -/

namespace Sys2Proof.Machine

/-- STATUS.ERR (60_exceptions R200). -/
inductive ErrCode where
  | none
  | malformedVarint
  | endOfInput
  | illegalCmd
  deriving DecidableEq, Repr

/-- A byte buffer (OBUF or IBUF): cells (index, byte), indexes strictly rising, each below 10, no cell holding 0x00. An
unlisted index reads 0x00, the reset contents (10_state R42, 20_memory R60). -/
abbrev Mem := List Host.Cell

/-- What `enc` and `dec` have in common (10_state R38, R39): the STATUS flags (R27), the latched fields S, W, B of the last
accepted command, and the byte counter. -/
structure Control where
  /-- STATUS.BUSY. -/
  busy : Bool
  /-- STATUS.DONE. -/
  done : Bool
  /-- STATUS.OVR. -/
  ovr : Bool
  /-- STATUS.ERR. -/
  err : ErrCode
  /-- `enc.s` or `dec.s`. -/
  signed : Bool
  /-- `enc.w` or `dec.w`. -/
  width : Width
  /-- `enc.b` or `dec.b`. -/
  buffer : Bool
  /-- `enc.cnt` (ENC_LEN) or `dec.cnt` (DEC_LEN). -/
  cnt : Count
  deriving DecidableEq, Repr

/-- The encoder unit (10_state R38). -/
structure Encoder where
  ctl : Control
  /-- The part of the value not yet emitted. -/
  work : Word
  /-- OBUF[0..9]. -/
  obuf : Mem
  deriving DecidableEq, Repr

/-- The decoder unit (10_state R39). -/
structure Decoder where
  ctl : Control
  /-- The accumulator of payload groups. -/
  acc : Word
  /-- The bit offset of the next payload group. -/
  off : BitVec 7
  /-- IBUF[0..9]. -/
  ibuf : Mem
  /-- DEC_ILEN. -/
  ilen : BitVec 4
  /-- DEC_RESULT. -/
  result : Word
  deriving DecidableEq, Repr

/-- The machine. -/
structure State where
  enc : Encoder
  dec : Decoder
  /-- ENC_VAL (10_state R26). -/
  encVal : Word
  /-- SNK: the bytes the sink has accepted, oldest first (30_encoding R91, 20_memory R75, R76). -/
  sink : List Byte
  /-- SRC: the responses the source gives next, in order (30_encoding R91). -/
  source : List Response
  /-- How many free responses were taken after `source` ran out (the model's own, log entry 4). -/
  sourcePos : Nat
  /-- What the host's reads returned, oldest first (30_encoding R91; the model's own record, log entry 5). -/
  reads : List Word
  /-- The agent steps that come next (the model's own, log entry 1). -/
  agenda : List Event
  /-- How many free agent steps were taken after `agenda` ran out (the model's own, log entry 2). -/
  turn : Nat
  deriving DecidableEq, Repr

/-- Why the machine stops with a fault. No other model fault exists (60_exceptions R214). -/
inductive Fault where
  /-- HAZARD_IBUF_WRITE_WHILE_BUSY (60_exceptions R214, 70_reset_and_hazards R234): raised by a host write to DEC_IBUF_LO,
  DEC_IBUF_HI or DEC_ILEN while the decoder is busy. Safe: the spec defines no behaviour there. -/
  | hazardIbufWriteWhileBusy
  deriving DecidableEq, Repr

/-- Why the machine refuses a step. The one refusal that is raised is that of 60_exceptions R214. -/
inductive Refusal where
  /-- The name of a command without a meaning. Raised by nothing: every command of the block has its meaning. Safe. -/
  | notModelled (mnemonic : String)
  /-- REFUSED_PARTIAL_ACCESS (60_exceptions R214, 20_memory R65): raised by a host access that is not a whole-register
  access. Safe: the spec gives it no meaning. -/
  | refusedPartialAccess
  deriving DecidableEq, Repr

/-- The control part of a unit after reset (10_state R42). -/
def Control.reset : Control :=
  { busy := false, done := false, ovr := false, err := .none, signed := false, width := .w32, buffer := false, cnt := 0#4 }

/-- The encoder after reset (10_state R42). -/
def Encoder.reset : Encoder := { ctl := Control.reset, work := 0#64, obuf := [] }

/-- The decoder after reset (10_state R42). -/
def Decoder.reset : Decoder :=
  { ctl := Control.reset, acc := 0#64, off := 0#7, ibuf := [], ilen := 0#4, result := 0#64 }

/-- The machine right after reset (10_state R42), with nothing yet sent, offered, read or scheduled (log entries 1, 2, 4, 5). -/
def State.reset : State :=
  { enc := Encoder.reset, dec := Decoder.reset, encVal := 0#64, sink := [], source := [], sourcePos := 0, reads := [],
    agenda := [], turn := 0 }

end Sys2Proof.Machine
end

