-- ==== Sys2Proof/Machine/Flags.lean ====
section
/-! DEFINITION. The flag computations: the STATUS word (10_state R27, 60_exceptions R200) and every way a unit's flags change
(30_encoding R88, 60_exceptions R203 to R205). No other condition codes exist (10_state R43). -/

namespace Sys2Proof.Machine

/-- The 2-bit code of STATUS.ERR (60_exceptions R200). -/
def ErrCode.code : ErrCode → BitVec 2
  | .none => 0#2
  | .malformedVarint => 1#2
  | .endOfInput => 2#2
  | .illegalCmd => 3#2

/-- The STATUS word: BUSY bit 0, DONE bit 1, ERR bits 3:2, OVR bit 4, bits 63:5 zero (10_state R27). -/
def Control.status (c : Control) : Word :=
  ((BitVec.ofBool c.ovr) ++ c.err.code ++ (BitVec.ofBool c.done) ++ (BitVec.ofBool c.busy)).setWidth 64

/-- A host write of `v` to a STATUS register: bit 4 = 1 clears OVR, and nothing else changes (10_state R27). -/
def Control.statusWrite (c : Control) (v : Word) : Control :=
  if v.getLsbD 4 then { c with ovr := false } else c

/-- A command to a busy unit is dropped: only OVR is set (30_encoding R88, 60_exceptions R204). -/
def Control.drop (c : Control) : Control := { c with ovr := true }

/-- An illegal command at an idle unit: acceptance clears DONE, ERR and cnt, then DONE and ERR are set; the latched fields
stay (30_encoding R88, 60_exceptions R203). -/
def Control.illegal (c : Control) : Control := { c with done := true, err := .illegalCmd, cnt := 0#4 }

/-- A legal command at an idle unit: DONE, ERR and cnt cleared, S, W, B latched, BUSY set, OVR kept (30_encoding R88). -/
def Control.accept (c : Control) (signed : Bool) (width : Width) (buffer : Bool) : Control :=
  { c with busy := true, done := false, err := .none, signed := signed, width := width, buffer := buffer, cnt := 0#4 }

/-- Completion with outcome `e`: BUSY cleared, DONE set, ERR the outcome (40_encoder R108, 41_decoder R148,
60_exceptions R205; log entry 8). -/
def Control.complete (c : Control) (e : ErrCode) : Control := { c with busy := false, done := true, err := e }

/-- One more byte handled (40_encoder R106, 41_decoder R145). -/
def Control.count (c : Control) : Control := { c with cnt := c.cnt + 1#4 }

end Sys2Proof.Machine
end

