-- ==== Sys2Proof/Machine/Operands.lean ====
section
/-! DEFINITION. The operand forms: payload widths (00_scope R5, R6), zig-zag and its inverse (40_encoder R100, 41_decoder
R140), the encoder's operand (30_encoding R86, 40_encoder R105), the decoder's payload groups and its result (41_decoder R146
to R148). -/

namespace Sys2Proof.Machine

/-- MAXB(W), the most bytes one varint of width W has (00_scope R6). -/
def maxBytes : Width → Nat
  | .w32 => 5
  | .w64 => 10

/-- `x` reduced modulo 2^W, zero-extended to 64 bits (00_scope R10). -/
def keepWidth (w : Width) (x : Word) : Word :=
  match w with
  | .w32 => (x.setWidth 32).setWidth 64
  | .w64 => x

/-- zigzag_W on a value of `n` = W bits: `(x << 1) ^ (x >>a (W-1))` (40_encoder R100). -/
def zigzag {n : Nat} (x : BitVec n) : BitVec n := (x <<< 1) ^^^ x.sshiftRight (n - 1)

/-- unzigzag_W on a value of `n` = W bits, in the three steps of 41_decoder R140; both right shifts are arithmetic
(90_conflicts C2). -/
def unzigzag {n : Nat} (r : BitVec n) : BitVec n :=
  let t := (r <<< (n - 1)).sshiftRight (n - 1)
  let mid := (t ^^^ r).sshiftRight 1
  mid ^^^ (r &&& BitVec.twoPow n (n - 1))

/-- What acceptance puts into `enc.work`: ENC_VAL[W-1:0], through zig-zag for a signed command, zero-extended to 64 bits
(40_encoder R105). -/
def encoderOperand (signed : Bool) (w : Width) (x : Word) : Word :=
  match signed, w with
  | false, .w32 => (x.setWidth 32).setWidth 64
  | true, .w32 => (zigzag (x.setWidth 32)).setWidth 64
  | false, .w64 => x
  | true, .w64 => zigzag x

/-- The continuation bit C of a wire byte (30_encoding R80). -/
def contBit (b : Byte) : Bool := b.getLsbD 7

/-- The payload group G of a wire byte (30_encoding R80). -/
def group (b : Byte) : BitVec 7 := b.extractLsb' 0 7

/-- Whether bits are set above the lowest 7, `v[63:7] != 0` (40_encoder R106, 90_conflicts C3). -/
def moreBits (v : Word) : Bool := v.extractLsb' 7 57 != 0#57

/-- The byte an encoder step emits for `enc.work = v` (40_encoder R106). -/
def outByte (v : Word) : Byte :=
  if moreBits v then (v.extractLsb' 0 7).setWidth 8 ||| 0x80#8 else v.extractLsb' 0 8

/-- `(acc | (zext_W(p) << off)) mod 2^W` with p the payload group of `x` (41_decoder R146, R147). -/
def accumulate (w : Width) (acc : Word) (off : BitVec 7) (x : Byte) : Word :=
  keepWidth w (acc ||| ((group x).setWidth 64 <<< off.toNat))

/-- The effective buffer length L = min(DEC_ILEN, 10) (10_state R33, 41_decoder R144). -/
def effectiveLen (ilen : BitVec 4) : Nat := min ilen.toNat 10

/-- DEC_RESULT for the raw payload: unzigzag_W for a signed command, then sign- or zero-extension to 64 bits
(41_decoder R148). -/
def decodedResult (signed : Bool) (w : Width) (raw : Word) : Word :=
  match signed, w with
  | false, .w32 => (raw.setWidth 32).setWidth 64
  | true, .w32 => (unzigzag (raw.setWidth 32)).signExtend 64
  | false, .w64 => raw
  | true, .w64 => unzigzag raw

/-- The W-bit value `x[W-1:0]` zero-extended (unsigned) or sign-extended (signed) to 64 bits (00_scope R10, 10_state R35). -/
def extendWidth (signed : Bool) (w : Width) (x : Word) : Word :=
  match signed, w with
  | false, .w32 => (x.setWidth 32).setWidth 64
  | true, .w32 => (x.setWidth 32).signExtend 64
  | _, .w64 => x

end Sys2Proof.Machine
end

