-- ==== Sys2Proof/Machine/Ops.lean ====
section
/-! DEFINITION. The named operations: one byte of a buffer (00_scope R11 MemRead and MemWrite), packing bytes into a register
(20_memory R63), SinkWrite and SourceRead (00_scope R11, R66), `raise`, which is the block's trap entry (60_exceptions R205),
and reset (70_reset_and_hazards R230). -/

namespace Sys2Proof.Machine

/-- Buffer indexes at or above `lo`, strictly rising, below 10, no cell 0x00. -/
def memWfFrom : Nat → Mem → Bool
  | _, [] => true
  | lo, (a, b) :: rest => decide (lo ≤ a) && decide (a < 10) && (b != 0#8) && memWfFrom (a + 1) rest

/-- The canonical form of a buffer. -/
def memWf (m : Mem) : Bool := memWfFrom 0 m

/-- MemRead of one byte (00_scope R11); an unlisted index reads 0x00 (10_state R42). -/
def readByte : Mem → Nat → Byte
  | [], _ => 0#8
  | (a, b) :: rest, i => if a = i then b else readByte rest i

/-- A cell (i, b) put before `m`, unless it is the 0x00 that an unlisted index reads. -/
def consCell (i : Nat) (b : Byte) (m : Mem) : Mem := if b = 0#8 then m else (i, b) :: m

/-- The cells of `m` with byte `b` at index `i`, in the canonical form. -/
def insertByte : Mem → Nat → Byte → Mem
  | [], i, b => consCell i b []
  | (a, c) :: rest, i, b =>
    if i < a then consCell i b ((a, c) :: rest)
    else if i = a then consCell i b rest
    else (a, c) :: insertByte rest i b

/-- MemWrite of one byte (00_scope R11). A buffer has bytes 0 to 9 only (20_memory R60), so an index of 10 or more, which no
unit step uses (40_encoder R107), has no byte to write (log entry 7). -/
def writeByte (m : Mem) (i : Nat) (b : Byte) : Mem := if i < 10 then insertByte m i b else m

/-- Bytes `base .. base+n-1` packed little-endian into a register, byte `base` lowest (20_memory R63). -/
def packBytes (m : Mem) : Nat → Nat → Word
  | _, 0 => 0#64
  | base, n + 1 => (readByte m base).setWidth 64 ||| (packBytes m (base + 1) n <<< 8)

/-- The lowest `n` bytes of a register written to `base .. base+n-1`, the lowest byte at `base` (20_memory R63). -/
def unpackBytes (m : Mem) : Nat → Nat → Word → Mem
  | _, 0, _ => m
  | base, n + 1, v => unpackBytes (writeByte m base (v.extractLsb' 0 8)) (base + 1) n (v >>> 8)

/-- emit(byte): SinkWrite in stream mode; in buffer mode MemWrite at index `enc.cnt`, before the increment (40_encoder
R107). -/
def emitByte (b : Byte) (s : State) : State :=
  if s.enc.ctl.buffer then { s with enc := { s.enc with obuf := writeByte s.enc.obuf s.enc.ctl.cnt.toNat b } }
  else { s with sink := s.sink ++ [b] }

/-- SourceRead: the next response of the source, consumed (00_scope R11, 20_memory R67). After the responses State lists,
the answer is a free value (93_implementation_defined U-5, log entry 4). -/
def sourceRead (s : State) : Response × State :=
  match s.source with
  | r :: rest => (r, { s with source := rest })
  | [] => (Config.freeResponse s.sourcePos, { s with sourcePos := s.sourcePos + 1 })

/-- `raise E(n)`: the error completion of the decoder, the block's trap entry. BUSY 0, DONE 1, ERR the code; cnt already
holds n, DEC_RESULT, acc and off keep their values, and control goes nowhere (60_exceptions R205). There is no return from
it (60_exceptions R207). -/
def raiseError (e : ErrCode) (s : State) : State :=
  { s with dec := { s.dec with ctl := s.dec.ctl.complete e } }

/-- The step of the reset input: every state element of 10_state R42 takes its reset value in both units; the sink keeps its
bytes and the source what it has not yet given (70_reset_and_hazards R230, 20_memory R76; log entry 6). -/
def resetBlock (s : State) : State :=
  { s with enc := Encoder.reset, dec := Decoder.reset, encVal := 0#64 }

end Sys2Proof.Machine
end

