-- ==== Sys2Proof/Machine/Decoder.lean ====
section
/-! DEFINITION. The VDEC family: what issuing each of the eight commands does (30_encoding R88, 41_decoder R142, R160 to R167)
and the decoder unit's step, one input a step (41_decoder R143 to R148). -/

namespace Sys2Proof.Machine

/-- Decoder initialisation (41_decoder R142): nothing is read, DEC_RESULT, IBUF and DEC_ILEN stay. -/
def decoderInit (signed : Bool) (w : Width) (buffer : Bool) (d : Decoder) : Decoder :=
  { d with ctl := d.ctl.accept signed w buffer, acc := 0#64, off := 0#7 }

/-- A legal VDEC command written to CMD (30_encoding R88): dropped while the decoder is busy, else accepted. -/
def issueDecoder (signed : Bool) (w : Width) (buffer : Bool) (s : State) : Host.Outcome State Fault Refusal :=
  if s.dec.ctl.busy then .next { s with dec := { s.dec with ctl := s.dec.ctl.drop } }
  else .next { s with dec := decoderInit signed w buffer s.dec }

/-- VDEC.U32 (41_decoder R160). -/
def execVdecU32 (s : State) : Host.Outcome State Fault Refusal := issueDecoder false .w32 false s

/-- VDEC.S32 (41_decoder R161). -/
def execVdecS32 (s : State) : Host.Outcome State Fault Refusal := issueDecoder true .w32 false s

/-- VDEC.U64 (41_decoder R162). -/
def execVdecU64 (s : State) : Host.Outcome State Fault Refusal := issueDecoder false .w64 false s

/-- VDEC.S64 (41_decoder R163). -/
def execVdecS64 (s : State) : Host.Outcome State Fault Refusal := issueDecoder true .w64 false s

/-- VDEC.U32.BUF (41_decoder R164). -/
def execVdecU32Buf (s : State) : Host.Outcome State Fault Refusal := issueDecoder false .w32 true s

/-- VDEC.S32.BUF (41_decoder R165). -/
def execVdecS32Buf (s : State) : Host.Outcome State Fault Refusal := issueDecoder true .w32 true s

/-- VDEC.U64.BUF (41_decoder R166). -/
def execVdecU64Buf (s : State) : Host.Outcome State Fault Refusal := issueDecoder false .w64 true s

/-- VDEC.S64.BUF (41_decoder R167). -/
def execVdecS64Buf (s : State) : Host.Outcome State Fault Refusal := issueDecoder true .w64 true s

/-- The decoder with byte `x` counted as consumed (41_decoder R145). -/
def countInput (d : Decoder) : Decoder := { d with ctl := d.ctl.count }

/-- Continuation (41_decoder R146): the payload group accumulated, the offset raised by 7. -/
def continueInput (d : Decoder) (x : Byte) : Decoder :=
  { d with acc := accumulate d.ctl.width d.acc d.off x, off := d.off + 7#7 }

/-- Terminator and successful completion (41_decoder R147, R148). -/
def finishInput (d : Decoder) (x : Byte) : Decoder :=
  { d with
    ctl := d.ctl.complete .none
    result := decodedResult d.ctl.signed d.ctl.width (accumulate d.ctl.width d.acc d.off x) }

/-- One input byte `x`, in the order of 41_decoder R145 to R147 and R150: counted; MalformedVarint if it is the MAXB(W)-th
byte with C = 1; a continuation if C = 1 and it is not the buffer's last; else the terminator. -/
def consumeByte (x : Byte) (lastAvail : Bool) (s : State) : State :=
  let d := countInput s.dec
  let t := { s with dec := d }
  if contBit x && decide (d.ctl.cnt.toNat = maxBytes d.ctl.width) then raiseError .malformedVarint t
  else if contBit x && !lastAvail then { t with dec := continueInput d x }
  else { t with dec := finishInput d x }

/-- A decoder step in stream mode, the source answering (41_decoder R143). -/
def decoderStream (s : State) : State :=
  match sourceRead s with
  | (.eoi, t) => raiseError .endOfInput t
  | (.byte x, t) => consumeByte x false t

/-- A decoder step in buffer mode (41_decoder R144). -/
def decoderBuffer (s : State) : State :=
  let l := effectiveLen s.dec.ilen
  let k := s.dec.ctl.cnt.toNat
  if l ≤ k then raiseError .endOfInput s
  else consumeByte (readByte s.dec.ibuf k) (decide (k + 1 = l)) s

/-- A turn of the decoder. The step is enabled when it is busy and, in stream mode, the source answers (41_decoder R143,
R144); a turn in which it is not enabled changes nothing (70_reset_and_hazards R237, log entry 3). -/
def decoderTurn (answers : Bool) (s : State) : Host.Outcome State Fault Refusal :=
  if s.dec.ctl.busy then
    if s.dec.ctl.buffer then .next (decoderBuffer s)
    else if answers then .next (decoderStream s)
    else .next s
  else .next s

end Sys2Proof.Machine
end

