-- ==== Sys2Proof/Machine/Encoder.lean ====
section
/-! DEFINITION. The VENC family: what issuing each of the eight commands does (30_encoding R88, 40_encoder R105, R110 to R117)
and the encoder unit's step, one byte a step (40_encoder R106 to R108). -/

namespace Sys2Proof.Machine

/-- Encoder initialisation (40_encoder R105): the operand latched into `work`, OBUF cleared in buffer mode only. -/
def encoderInit (signed : Bool) (w : Width) (buffer : Bool) (s : State) : Encoder :=
  { ctl := s.enc.ctl.accept signed w buffer
    work := encoderOperand signed w s.encVal
    obuf := if buffer then [] else s.enc.obuf }

/-- A legal VENC command written to CMD (30_encoding R88): dropped while the encoder is busy, else accepted. -/
def issueEncoder (signed : Bool) (w : Width) (buffer : Bool) (s : State) : Host.Outcome State Fault Refusal :=
  if s.enc.ctl.busy then .next { s with enc := { s.enc with ctl := s.enc.ctl.drop } }
  else .next { s with enc := encoderInit signed w buffer s }

/-- VENC.U32 (40_encoder R110). -/
def execVencU32 (s : State) : Host.Outcome State Fault Refusal := issueEncoder false .w32 false s

/-- VENC.S32 (40_encoder R111). -/
def execVencS32 (s : State) : Host.Outcome State Fault Refusal := issueEncoder true .w32 false s

/-- VENC.U64 (40_encoder R112). -/
def execVencU64 (s : State) : Host.Outcome State Fault Refusal := issueEncoder false .w64 false s

/-- VENC.S64 (40_encoder R113). -/
def execVencS64 (s : State) : Host.Outcome State Fault Refusal := issueEncoder true .w64 false s

/-- VENC.U32.BUF (40_encoder R114). -/
def execVencU32Buf (s : State) : Host.Outcome State Fault Refusal := issueEncoder false .w32 true s

/-- VENC.S32.BUF (40_encoder R115). -/
def execVencS32Buf (s : State) : Host.Outcome State Fault Refusal := issueEncoder true .w32 true s

/-- VENC.U64.BUF (40_encoder R116). -/
def execVencU64Buf (s : State) : Host.Outcome State Fault Refusal := issueEncoder false .w64 true s

/-- VENC.S64.BUF (40_encoder R117). -/
def execVencS64Buf (s : State) : Host.Outcome State Fault Refusal := issueEncoder true .w64 true s

/-- The encoder after it has emitted the byte of `work`: counted, then shifted (logically) or complete (40_encoder R103,
R106, R108). -/
def encoderAdvance (e : Encoder) : Encoder :=
  if moreBits e.work then { e with ctl := e.ctl.count, work := e.work >>> 7 }
  else { e with ctl := e.ctl.count.complete .none }

/-- An encoder step: one byte emitted (40_encoder R106). -/
def encoderByte (s : State) : State :=
  let t := emitByte (outByte s.enc.work) s
  { t with enc := encoderAdvance t.enc }

/-- A turn of the encoder. The step is enabled when it is busy and, in stream mode, the sink accepts (40_encoder R106, R107);
a turn in which it is not enabled changes nothing (70_reset_and_hazards R237, log entry 3). -/
def encoderTurn (accepts : Bool) (s : State) : Host.Outcome State Fault Refusal :=
  if s.enc.ctl.busy && (s.enc.ctl.buffer || accepts) then .next (encoderByte s) else .next s

end Sys2Proof.Machine
end

