-- ==== Sys2Proof/Machine/Dispatch.lean ====
section
/-! DEFINITION. The dispatch of a legal command to its meaning (30_encoding R87, R88). -/

namespace Sys2Proof.Machine

/-- What the write of a legal command to CMD does (30_encoding R88). -/
def exec (i : Instr) (s : State) : Host.Outcome State Fault Refusal :=
  match i with
  | .vencU32 => Sys2Proof.Machine.execVencU32 s
  | .vencS32 => Sys2Proof.Machine.execVencS32 s
  | .vencU64 => Sys2Proof.Machine.execVencU64 s
  | .vencS64 => Sys2Proof.Machine.execVencS64 s
  | .vencU32Buf => Sys2Proof.Machine.execVencU32Buf s
  | .vencS32Buf => Sys2Proof.Machine.execVencS32Buf s
  | .vencU64Buf => Sys2Proof.Machine.execVencU64Buf s
  | .vencS64Buf => Sys2Proof.Machine.execVencS64Buf s
  | .vdecU32 => Sys2Proof.Machine.execVdecU32 s
  | .vdecS32 => Sys2Proof.Machine.execVdecS32 s
  | .vdecU64 => Sys2Proof.Machine.execVdecU64 s
  | .vdecS64 => Sys2Proof.Machine.execVdecS64 s
  | .vdecU32Buf => Sys2Proof.Machine.execVdecU32Buf s
  | .vdecS32Buf => Sys2Proof.Machine.execVdecS32Buf s
  | .vdecU64Buf => Sys2Proof.Machine.execVdecU64Buf s
  | .vdecS64Buf => Sys2Proof.Machine.execVdecS64Buf s

end Sys2Proof.Machine
end

