-- ==== Sys2Proof/Machine/Registers.lean ====
section
/-! DEFINITION. The host register map (10_state R23): which number is which register, what a read returns (R24 to R36), and
what a write to a register other than CMD does (R24 to R37, 70_reset_and_hazards R234, R236). -/

namespace Sys2Proof.Machine

/-- A register of the map of 10_state R23, or a reserved number. -/
inductive HostReg where
  | cmd
  | encVal
  | encStatus
  | encLen
  | encObufLo
  | encObufHi
  | decIbufLo
  | decIbufHi
  | decIlen
  | decStatus
  | decLen
  | decResult
  | reserved
  deriving DecidableEq, Repr

/-- The register a number selects (10_state R23). -/
def hostReg (n : RegNo) : HostReg :=
  match n.toNat with
  | 0x00 => .cmd
  | 0x01 => .encVal
  | 0x02 => .encStatus
  | 0x03 => .encLen
  | 0x04 => .encObufLo
  | 0x05 => .encObufHi
  | 0x08 => .decIbufLo
  | 0x09 => .decIbufHi
  | 0x0A => .decIlen
  | 0x0B => .decStatus
  | 0x0C => .decLen
  | 0x0D => .decResult
  | _ => .reserved

/-- What a host read returns (10_state R24 to R36). -/
def readReg (n : RegNo) (s : State) : Word :=
  match hostReg n with
  | .cmd => 0#64
  | .encVal => s.encVal
  | .encStatus => s.enc.ctl.status
  | .encLen => s.enc.ctl.cnt.setWidth 64
  | .encObufLo => packBytes s.enc.obuf 0 8
  | .encObufHi => packBytes s.enc.obuf 8 2
  | .decIbufLo => packBytes s.dec.ibuf 0 8
  | .decIbufHi => packBytes s.dec.ibuf 8 2
  | .decIlen => s.dec.ilen.setWidth 64
  | .decStatus => s.dec.ctl.status
  | .decLen => s.dec.ctl.cnt.setWidth 64
  | .decResult => s.dec.result
  | .reserved => 0#64

/-- A decoder-input write: the fault HAZARD_IBUF_WRITE_WHILE_BUSY while the decoder is busy, in either mode
(70_reset_and_hazards R234, 60_exceptions R214), else the new decoder. -/
def writeDecoderInput (d : Decoder) (s : State) : Host.Outcome State Fault Refusal :=
  if s.dec.ctl.busy then .fault .hazardIbufWriteWhileBusy else .next { s with dec := d }

/-- A host write to a register other than CMD (10_state R24 to R37). -/
def storeReg (n : RegNo) (v : Word) (s : State) : Host.Outcome State Fault Refusal :=
  match hostReg n with
  | .encVal => .next { s with encVal := v }
  | .encStatus => .next { s with enc := { s.enc with ctl := s.enc.ctl.statusWrite v } }
  | .decStatus => .next { s with dec := { s.dec with ctl := s.dec.ctl.statusWrite v } }
  | .decIbufLo => writeDecoderInput { s.dec with ibuf := unpackBytes s.dec.ibuf 0 8 v } s
  | .decIbufHi => writeDecoderInput { s.dec with ibuf := unpackBytes s.dec.ibuf 8 2 v } s
  | .decIlen => writeDecoderInput { s.dec with ilen := v.extractLsb' 0 4 } s
  | .cmd => .next s
  | .encLen => .next s
  | .encObufLo => .next s
  | .encObufHi => .next s
  | .decLen => .next s
  | .decResult => .next s
  | .reserved => .next s

end Sys2Proof.Machine
end

