-- ==== Sys2Proof/Machine/Agents.lean ====
section
/-! DEFINITION. The agents' steps (10_state R20): the CMD write (30_encoding R88), host reads and writes (10_state R36, R37), a
turn of a unit, reset; which of them comes next (20_memory R69); sequences of them; and the host notation of
30_encoding R91. -/

namespace Sys2Proof.Machine

/-- An illegal word at the unit `u`: dropped while `u` is busy, else ILLEGAL_CMD (30_encoding R88, 60_exceptions R203, R208). -/
def issueIllegal (u : UnitId) (s : State) : State :=
  match u with
  | .enc => { s with enc := { s.enc with ctl := if s.enc.ctl.busy then s.enc.ctl.drop else s.enc.ctl.illegal } }
  | .dec => { s with dec := { s.dec with ctl := if s.dec.ctl.busy then s.dec.ctl.drop else s.dec.ctl.illegal } }

/-- A host write of `v` to CMD (30_encoding R88). -/
def cmdWrite (v : Word) (s : State) : Host.Outcome State Fault Refusal :=
  match decode v with
  | .legal i => exec i s
  | .illegalCmd u => .next (issueIllegal u s)

/-- A host write (10_state R37): CMD issues the command, every other number is a register of the map. -/
def writeReg (n : RegNo) (v : Word) (s : State) : Host.Outcome State Fault Refusal :=
  if hostReg n = .cmd then cmdWrite v s else storeReg n v s

/-- A host read: no state of the block changes, the value goes to the host (10_state R36, 20_memory R67). -/
def hostReadStep (n : RegNo) (s : State) : State := { s with reads := s.reads ++ [readReg n s] }

/-- One agent step (10_state R20, 20_memory R69). A host access that is not a whole-register access is refused
(20_memory R65, 60_exceptions R214). -/
def runEvent (e : Event) (s : State) : Host.Outcome State Fault Refusal :=
  match e with
  | .hostRead n => .next (hostReadStep n s)
  | .hostWrite n v => writeReg n v s
  | .hostPartial _ => .refused .refusedPartialAccess
  | .encoder accepts => encoderTurn accepts s
  | .decoder answers => decoderTurn answers s
  | .reset => .next (resetBlock s)

/-- Which agent steps next: the agenda's first entry, which is taken off it, and a free value when the agenda is empty
(20_memory R69, 93_implementation_defined U-6, U-7; log entries 1 and 2). -/
def nextEvent (s : State) : Event × State :=
  match s.agenda with
  | e :: rest => (e, { s with agenda := rest })
  | [] => (Config.freeEvent s.turn, { s with turn := s.turn + 1 })

/-- Agent steps one after the other, up to the first fault or refusal. -/
def runEvents : List Event → State → Host.Outcome State Fault Refusal
  | [], s => .next s
  | e :: rest, s =>
    match runEvent e s with
    | .next t => runEvents rest t
    | .fault f => .fault f
    | .refused r => .refused r

/-- ISSUE: a write of the command's word to CMD (30_encoding R91). -/
def issue (i : Instr) : Event := .hostWrite 0x00#5 (encode i)

/-- The number of a unit's STATUS register (10_state R23). -/
def statusRegNo : UnitId → RegNo
  | .enc => 0x02#5
  | .dec => 0x0B#5

/-- One round of WAIT: a read of the unit's STATUS (30_encoding R91); the loop's test is the host's own (30_encoding R93). -/
def poll (u : UnitId) : Event := .hostRead (statusRegNo u)

/-- CLROVR: a write of 0x10 to the unit's STATUS (30_encoding R91). -/
def clearOvr (u : UnitId) : Event := .hostWrite (statusRegNo u) 0x10#64

/-- `s` with a CMD write of `v` as the agent step that comes next. -/
def placeCommand (v : Word) (s : State) : State := { s with agenda := .hostWrite 0x00#5 v :: s.agenda }

end Sys2Proof.Machine
end

