-- ==== Sys2Proof/Machine/Step.lean ====
section
/-! DEFINITION. One step of the machine: the agent step that comes next, carried out (20_memory R69). -/

namespace Sys2Proof.Machine

/-- One step. -/
def step (s : State) : Host.Outcome State Fault Refusal := runEvent (nextEvent s).1 (nextEvent s).2

/-- `s` with the command word `w` placed where the next step takes its command from: a host write of `w` to CMD at the head
of the agenda. A command word is one 64-bit value whose bits at or above `_nbits` are 0 in `w` (log entry 11). -/
def State.withFetchWord (s : State) (_nbits w : Nat) : State := placeCommand (BitVec.ofNat 64 w) s

end Sys2Proof.Machine
end

