-- ==== Sys2Proof/Machine/Wire.lean ====
section
/-! DEFINITION. The wire format and the codec's two algorithms as whole functions (30_encoding R80 to R84, 40_encoder R102,
41_decoder R152). The machine does not call them; claims compare its byte-by-byte steps with them. -/

namespace Sys2Proof.Machine

/-- The value of a varint: the sum of its payload groups, least-significant group first (30_encoding R81). -/
def varintValue : List Byte → Nat
  | [] => 0
  | b :: rest => (group b).toNat + 2 ^ 7 * varintValue rest

/-- The encoded length of a value, row by row of the table of 30_encoding R84. -/
def encodedLen (v : Word) : Nat :=
  if v ≤ 0x7F#64 then 1 else if v ≤ 0x3FFF#64 then 2 else if v ≤ 0x1FFFFF#64 then 3 else if v ≤ 0xFFFFFFF#64 then 4
  else if v ≤ 0x7FFFFFFFF#64 then 5 else if v ≤ 0x3FFFFFFFFFF#64 then 6 else if v ≤ 0x1FFFFFFFFFFFF#64 then 7
  else if v ≤ 0xFFFFFFFFFFFFFF#64 then 8 else if v ≤ 0x7FFFFFFFFFFFFFFF#64 then 9 else 10

/-- At most `n` rounds of the loop of 40_encoder R102. -/
def encodeLoop : Nat → Word → List Byte
  | 0, _ => []
  | n + 1, v =>
    if v >>> 7 = 0#64 then [v.setWidth 8]
    else ((v &&& 0x7F#64) ||| 0x80#64).setWidth 8 :: encodeLoop n (v >>> 7)

/-- encodeUnsigned of a value held zero-extended in 64 bits (40_encoder R102, R103); 10 rounds are enough (00_scope R6). -/
def encodeUnsigned (v : Word) : List Byte := encodeLoop 10 v

/-- The bytes a command of signedness `signed` and width `w` encodes ENC_VAL = `x` to (40_encoder R102, R105). -/
def encodedBytes (signed : Bool) (w : Width) (x : Word) : List Byte := encodeUnsigned (encoderOperand signed w x)

/-- How many bytes at the front of an input have C = 1. -/
def contRun : List Byte → Nat
  | [] => 0
  | b :: rest => if contBit b then contRun rest + 1 else 0

/-- The outcome of a whole decode (41_decoder R152); `n` is DEC_LEN. -/
inductive DecodeOutcome where
  | malformed (n : Nat)
  | endOfInput (n : Nat)
  | success (raw : Word) (n : Nat)
  deriving DecidableEq, Repr

/-- `varintValue` modulo 2^W in a register (41_decoder R152). -/
def rawOf (w : Width) (xs : List Byte) : Word := BitVec.ofNat 64 (varintValue xs % 2 ^ w.bits)

/-- The whole decode as one function (41_decoder R152). `xs` is IBUF[0 .. L-1] in buffer mode and the bytes the source gives
before end-of-input in stream mode. -/
def decodeWhole (w : Width) (buffer : Bool) (xs : List Byte) : DecodeOutcome :=
  if maxBytes w ≤ contRun xs then .malformed (maxBytes w)
  else if contRun xs < xs.length then .success (rawOf w (xs.take (contRun xs + 1))) (contRun xs + 1)
  else if buffer && !xs.isEmpty then .success (rawOf w xs) xs.length
  else .endOfInput xs.length

/-- IBUF[0 .. n-1] as a sequence (30_encoding R86). -/
def bufferBytes (m : Mem) (n : Nat) : List Byte := (List.range n).map (readByte m)

end Sys2Proof.Machine
end

