-- ==== Sys2Proof/Safety.lean ====
section
/-! DEFINITION. What counts as a safe run, in the terms claims use: the invariants of 10_state R40 (with what makes them
inductive), the agent steps that leave a unit's operation alone, and how many enabled turns a unit has in a sequence of agent
steps (70_reset_and_hazards R239), and fairness of an infinite run (70_reset_and_hazards R240). -/

namespace Sys2Proof.Machine

/-- What holds of the encoder in every reachable state: 10_state R40 (a), (b), (c), (e); ERR is 0 or 3 and is 0 while DONE
= 0 (10_state R27); while busy, the bytes still to come fit below MAXB(W), and in buffer mode OBUF holds only the bytes
emitted so far (40_encoder R107, 70_reset_and_hazards R235); OBUF is in canonical form. -/
abbrev Encoder.Inv (e : Encoder) : Prop :=
  (e.ctl.busy = true → e.ctl.done = false)
  ∧ (e.ctl.done = false → e.ctl.err = .none)
  ∧ (e.ctl.err = .none ∨ e.ctl.err = .illegalCmd)
  ∧ e.work.toNat < 2 ^ e.ctl.width.bits
  ∧ e.ctl.cnt.toNat ≤ maxBytes e.ctl.width
  ∧ (e.ctl.busy = true → e.ctl.cnt.toNat < maxBytes e.ctl.width)
  ∧ (e.ctl.busy = true → e.work.toNat * 2 ^ (7 * e.ctl.cnt.toNat) < 2 ^ e.ctl.width.bits)
  ∧ (e.ctl.busy = true → e.ctl.buffer = true → ∀ c ∈ e.obuf, c.1 < e.ctl.cnt.toNat)
  ∧ memWf e.obuf = true

/-- What holds of the decoder in every reachable state: 10_state R40 (a), (c), (d), (e); ERR is 0 while DONE = 0; `off` is
one of 0, 7, ..., 63 (10_state R39); a busy buffer-mode decode that has read a byte has not reached its effective length
(41_decoder R144); IBUF is in canonical form. -/
abbrev Decoder.Inv (d : Decoder) : Prop :=
  (d.ctl.busy = true → d.ctl.done = false)
  ∧ (d.ctl.done = false → d.ctl.err = .none)
  ∧ d.ctl.cnt.toNat ≤ maxBytes d.ctl.width
  ∧ d.off.toNat ≤ 63 ∧ d.off.toNat % 7 = 0
  ∧ (d.ctl.busy = true → d.ctl.cnt.toNat < maxBytes d.ctl.width)
  ∧ (d.ctl.busy = true → d.off.toNat = 7 * d.ctl.cnt.toNat)
  ∧ (d.ctl.busy = true → d.acc.toNat < 2 ^ d.ctl.width.bits ∧ d.acc.toNat < 2 ^ (7 * d.ctl.cnt.toNat))
  ∧ (d.ctl.busy = true → d.ctl.buffer = true → d.ctl.cnt.toNat = 0 ∨ d.ctl.cnt.toNat < effectiveLen d.ilen)
  ∧ memWf d.ibuf = true

/-- The invariant of the machine (10_state R40). -/
abbrev State.Inv (s : State) : Prop := s.enc.Inv ∧ s.dec.Inv

/-- The agent steps that can neither start, drop nor abandon an operation of unit `u`: everything but reset and a CMD write
whose bit 3 names `u` (30_encoding R88, 30_encoding R94, 70_reset_and_hazards R231). -/
def sparesUnit (u : UnitId) : Event → Bool
  | .hostWrite n v => !(hostReg n == .cmd && addressedUnit v == u)
  | .reset => false
  | _ => true

/-- A turn in which a busy encoder in this mode has an enabled step (40_encoder R106, R107). -/
def runsEncoder (buffer : Bool) : Event → Bool
  | .encoder accepts => buffer || accepts
  | _ => false

/-- A turn in which a busy decoder in this mode has an enabled step (41_decoder R143, R144). -/
def runsDecoder (buffer : Bool) : Event → Bool
  | .decoder answers => buffer || answers
  | _ => false

/-- How many enabled encoder turns a sequence of agent steps holds. -/
def encoderTurns (buffer : Bool) (es : List Event) : Nat := es.countP (runsEncoder buffer)

/-- How many enabled decoder turns a sequence of agent steps holds. -/
def decoderTurns (buffer : Bool) (es : List Event) : Nat := es.countP (runsDecoder buffer)

/-- An infinite run: `sched` names the agent steps and `path` the states between them (20_memory R69). -/
abbrev FollowsSchedule (sched : Nat → Event) (path : Nat → State) : Prop :=
  ∀ n, runEvent (sched n) (path n) = .next (path (n + 1))

/-- Weak fairness of the encoder (70_reset_and_hazards R240): if from some point on it stays busy, it gets an enabled turn, in
stream mode with a sink that keeps accepting. The host and the environment get no fairness. -/
abbrev EncoderFair (sched : Nat → Event) (path : Nat → State) : Prop :=
  ∀ n, (∀ m, n ≤ m → (path m).enc.ctl.busy = true) → ∃ m, n ≤ m ∧ runsEncoder (path m).enc.ctl.buffer (sched m) = true

/-- Weak fairness of the decoder (70_reset_and_hazards R240), in stream mode with a source that keeps answering. -/
abbrev DecoderFair (sched : Nat → Event) (path : Nat → State) : Prop :=
  ∀ n, (∀ m, n ≤ m → (path m).dec.ctl.busy = true) → ∃ m, n ≤ m ∧ runsDecoder (path m).dec.ctl.buffer (sched m) = true

/-- A decoder turn (`answers` as in the event) in which the busy decoder takes the byte `x`: from the source's
listed responses, or from IBUF at index `dec.cnt` below the effective length (41_decoder R143, R144). `lastAvail` is the
rule's; `u` is the state with the byte taken from the source. A response past the list is the case of a list with that response
at its head (log entry 4; `Obligations.EmptySourceAnswersFreely`). -/
abbrev TakesByte (s : State) (answers : Bool) (x : Byte) (lastAvail : Bool) (u : State) : Prop :=
  s.dec.ctl.busy = true ∧
  ((s.dec.ctl.buffer = false ∧ answers = true ∧ lastAvail = false
      ∧ s.source.head? = some (.byte x) ∧ u = { s with source := s.source.tail })
   ∨ (s.dec.ctl.buffer = true ∧ s.dec.ctl.cnt.toNat < effectiveLen s.dec.ilen
      ∧ x = readByte s.dec.ibuf s.dec.ctl.cnt.toNat
      ∧ lastAvail = decide (s.dec.ctl.cnt.toNat + 1 = effectiveLen s.dec.ilen) ∧ u = s))

/-- The source gives at least the bytes `xs`, and either end-of-input right after them or no need of more: a terminator is
among them, or MAXB(W) bytes with C = 1 come first (41_decoder R152). -/
abbrev SourceGives (w : Width) (src : List Response) (xs : List Byte) : Prop :=
  src.take xs.length = xs.map .byte
  ∧ (src[xs.length]? = some .eoi ∨ contRun xs < xs.length ∨ maxBytes w ≤ contRun xs)

/-- What a decode that ended with outcome `o` leaves in the decoder, DEC_RESULT having been `r0` (41_decoder R148, R152,
60_exceptions R205). -/
abbrev Reports (d : Decoder) (r0 : Word) (o : DecodeOutcome) : Prop :=
  d.ctl.busy = false ∧ d.ctl.done = true ∧
  match o with
  | .malformed n => d.ctl.err = .malformedVarint ∧ d.ctl.cnt.toNat = n ∧ d.result = r0
  | .endOfInput n => d.ctl.err = .endOfInput ∧ d.ctl.cnt.toNat = n ∧ d.result = r0
  | .success raw n =>
    d.ctl.err = .none ∧ d.ctl.cnt.toNat = n ∧ d.result = decodedResult d.ctl.signed d.ctl.width raw

/-- How many source responses a decode with outcome `o` takes: one for each byte, and one for end-of-input
(41_decoder R143, R149). -/
def responsesTaken : DecodeOutcome → Nat
  | .malformed n => n
  | .endOfInput n => n + 1
  | .success _ n => n

end Sys2Proof.Machine
end

