-- ==== Sys2Proof/Certificates/Slice0/Obligations.lean ====
section
/-! DEFINITION. The statements for the provers: what the numbered rules of the spec say the block does. -/

open Sys2Proof Sys2Proof.Machine

/-! ### Encoding -/

/-- 30_encoding R87: the 16 command words, written out from the opcode map, decode to their commands. -/
def Obligations.CommandWordsDecode : Prop :=
  decode 0x0#64 = .legal .vencU32 ∧ decode 0x1#64 = .legal .vencS32 ∧
  decode 0x2#64 = .legal .vencU64 ∧ decode 0x3#64 = .legal .vencS64 ∧
  decode 0x4#64 = .legal .vencU32Buf ∧ decode 0x5#64 = .legal .vencS32Buf ∧
  decode 0x6#64 = .legal .vencU64Buf ∧ decode 0x7#64 = .legal .vencS64Buf ∧
  decode 0x8#64 = .legal .vdecU32 ∧ decode 0x9#64 = .legal .vdecS32 ∧
  decode 0xA#64 = .legal .vdecU64 ∧ decode 0xB#64 = .legal .vdecS64 ∧
  decode 0xC#64 = .legal .vdecU32Buf ∧ decode 0xD#64 = .legal .vdecS32Buf ∧
  decode 0xE#64 = .legal .vdecU64Buf ∧ decode 0xF#64 = .legal .vdecS64Buf

/-- The encoder (from R85 and R90) and the decoder (from R87) agree on every command. -/
def Obligations.DecodeOfEncode : Prop := ∀ i : Instr, decode (encode i) = .legal i

/-- 30_encoding R89: a word decodes to a command exactly when v[63:4] = 0, and then it is that command's word and carries its
fields; every other word is illegal, reported by the unit v[3] names. -/
def Obligations.DecodeByReservedBits : Prop :=
  ∀ v : Word,
    (v.toNat < 16 → ∃ i, decode v = .legal i ∧ encode i = v ∧ i.signed = v.getLsbD 0
      ∧ i.width = (if v.getLsbD 1 then .w64 else .w32) ∧ i.buffer = v.getLsbD 2
      ∧ i.unit = (if v.getLsbD 3 then .dec else .enc))
    ∧ (16 ≤ v.toNat → decode v = .illegalCmd (if v.getLsbD 3 then .dec else .enc))

/-! ### Issuing a command -/

/-- 40_encoder R105, 30_encoding R88: each of the eight VENC commands (vencU32, vencS32, vencU64, vencS64, vencU32Buf,
vencS32Buf, vencU64Buf, vencS64Buf), issued to an idle encoder, is accepted. The second clause: ENC_VAL is read only here, so
no turn of the encoder depends on it. -/
def Obligations.VencAccepted : Prop :=
  (∀ (i : Instr) (s : State), i.unit = .enc → s.enc.ctl.busy = false →
    exec i s = .next { s with enc := {
      ctl := { busy := true, done := false, ovr := s.enc.ctl.ovr, err := .none, signed := i.signed, width := i.width,
               buffer := i.buffer, cnt := 0#4 }
      work := encoderOperand i.signed i.width s.encVal
      obuf := if i.buffer then [] else s.enc.obuf } })
  ∧ (∀ (a : Bool) (s t : State) (x : Word), runEvent (.encoder a) s = .next t →
      runEvent (.encoder a) { s with encVal := x } = .next { t with encVal := x })

/-- 41_decoder R142, 30_encoding R88: each of the eight VDEC commands (vdecU32, vdecS32, vdecU64, vdecS64, vdecU32Buf,
vdecS32Buf, vdecU64Buf, vdecS64Buf), issued to an idle decoder, is accepted. -/
def Obligations.VdecAccepted : Prop :=
  ∀ (i : Instr) (s : State), i.unit = .dec → s.dec.ctl.busy = false →
    exec i s = .next { s with dec := { s.dec with
      ctl := { busy := true, done := false, ovr := s.dec.ctl.ovr, err := .none, signed := i.signed, width := i.width,
               buffer := i.buffer, cnt := 0#4 }
      acc := 0#64
      off := 0#7 } }

/-- 60_exceptions R204: a CMD write that names a busy unit only sets that unit's OVR, be the word legal or not; and OVR stays
until a write of 1 to STATUS bit 4, or reset. -/
def Obligations.BusyCommandDroppedAndOvrSticky : Prop :=
  (∀ (v : Word) (s : State), v.getLsbD 3 = false → s.enc.ctl.busy = true →
    runEvent (.hostWrite 0x00#5 v) s = .next { s with enc := { s.enc with ctl := { s.enc.ctl with ovr := true } } })
  ∧ (∀ (v : Word) (s : State), v.getLsbD 3 = true → s.dec.ctl.busy = true →
    runEvent (.hostWrite 0x00#5 v) s = .next { s with dec := { s.dec with ctl := { s.dec.ctl with ovr := true } } })
  ∧ (∀ (e : Event) (s t : State), runEvent e s = .next t →
    (s.enc.ctl.ovr = true → t.enc.ctl.ovr = true ∨ e = .reset ∨ ∃ v : Word, e = .hostWrite 0x02#5 v ∧ v.getLsbD 4 = true)
    ∧ (s.dec.ctl.ovr = true → t.dec.ctl.ovr = true ∨ e = .reset ∨ ∃ v : Word, e = .hostWrite 0x0B#5 v ∧ v.getLsbD 4 = true))

/-- 60_exceptions R203: a CMD write with v[63:4] not all zero that reaches an idle unit sets DONE and ERR = 3, clears cnt, and
changes nothing else. -/
def Obligations.IllegalCommandReported : Prop :=
  ∀ (v : Word) (s : State), 16 ≤ v.toNat →
    (v.getLsbD 3 = false → s.enc.ctl.busy = false →
      runEvent (.hostWrite 0x00#5 v) s = .next { s with enc := { s.enc with
        ctl := { s.enc.ctl with done := true, err := .illegalCmd, cnt := 0#4 } } })
    ∧ (v.getLsbD 3 = true → s.dec.ctl.busy = false →
      runEvent (.hostWrite 0x00#5 v) s = .next { s with dec := { s.dec with
        ctl := { s.dec.ctl with done := true, err := .illegalCmd, cnt := 0#4 } } })

/-- The frame of the eight VENC commands: in every next state the decoder, ENC_VAL, the streams and the model's records are
unchanged, and so is every byte of OBUF unless a buffer-mode command is accepted, which leaves every byte 0x00. -/
def Obligations.VencFrame : Prop :=
  ∀ (i : Instr) (s t : State), i.unit = .enc → exec i s = .next t →
    t = { s with enc := t.enc }
    ∧ (∀ k, readByte t.dec.ibuf k = readByte s.dec.ibuf k)
    ∧ (i.buffer = false ∨ s.enc.ctl.busy = true → ∀ k, readByte t.enc.obuf k = readByte s.enc.obuf k)
    ∧ (i.buffer = true → s.enc.ctl.busy = false → ∀ k, readByte t.enc.obuf k = 0x00#8)
    ∧ (s.enc.ctl.busy = false → t.enc.ctl.ovr = s.enc.ctl.ovr)
    ∧ (s.enc.ctl.busy = true → t.enc = { s.enc with ctl := { s.enc.ctl with ovr := true } })

/-- The frame of the eight VDEC commands: in every next state the encoder, ENC_VAL, the streams and the model's records are
unchanged, and so are every byte of IBUF and of OBUF, DEC_ILEN and DEC_RESULT. -/
def Obligations.VdecFrame : Prop :=
  ∀ (i : Instr) (s t : State), i.unit = .dec → exec i s = .next t →
    t = { s with dec := t.dec }
    ∧ (∀ k, readByte t.dec.ibuf k = readByte s.dec.ibuf k) ∧ (∀ k, readByte t.enc.obuf k = readByte s.enc.obuf k)
    ∧ t.dec.ilen = s.dec.ilen ∧ t.dec.result = s.dec.result
    ∧ (s.dec.ctl.busy = false → t.dec.ctl.ovr = s.dec.ctl.ovr)
    ∧ (s.dec.ctl.busy = true → t.dec = { s.dec with ctl := { s.dec.ctl with ovr := true } })

/-! ### The step -/

/-- A step carries out the agent step at the head of the agenda, on the state with that entry taken off; with an empty agenda
it carries out the free value (log entries 1 and 2: the model's own way to hold the interleaving of 20_memory R69). -/
def Obligations.StepRunsNextEvent : Prop :=
  (∀ (s : State) (e : Event) (rest : List Event), s.agenda = e :: rest → step s = runEvent e { s with agenda := rest })
  ∧ (∀ s : State, s.agenda = [] → step s = runEvent (Config.freeEvent s.turn) { s with turn := s.turn + 1 })

/-- When the next agent step is a CMD write of a word that decodes to the command `i`, the step is `exec` of `i` on the state
with that write taken off the agenda. -/
def Obligations.StepRunsDecodedCommand : Prop :=
  ∀ (s : State) (v : Word) (i : Instr) (rest : List Event),
    s.agenda = .hostWrite 0x00#5 v :: rest → decode v = .legal i → step s = exec i { s with agenda := rest }

/-- Steps over an agenda are the agent steps of that agenda, one after the other. -/
def Obligations.RunOverAgenda : Prop :=
  ∀ (es rest : List Event) (s t : State), runEvents es { s with agenda := rest } = .next t →
    t.agenda = rest ∧ Sys2Proof.core.run es.length { s with agenda := es ++ rest } = .next t

/-! ### The host registers -/

/-- 10_state R24, R25, R26, R35, R36: what a host read of each register number returns, and that a read changes nothing in the
block: only the value goes to the host. -/
def Obligations.HostReads : Prop :=
  ∀ s : State,
    readReg 0x00#5 s = 0#64 ∧ readReg 0x01#5 s = s.encVal
    ∧ (readReg 0x03#5 s).toNat = s.enc.ctl.cnt.toNat ∧ (readReg 0x0C#5 s).toNat = s.dec.ctl.cnt.toNat
    ∧ (readReg 0x0A#5 s).toNat = s.dec.ilen.toNat ∧ readReg 0x0D#5 s = s.dec.result
    ∧ (∀ n : RegNo, n.toNat = 6 ∨ n.toNat = 7 ∨ 14 ≤ n.toNat → readReg n s = 0#64)
    ∧ (∀ n : RegNo, runEvent (.hostRead n) s = .next { s with reads := s.reads ++ [readReg n s] })

/-- 10_state R27 and 60_exceptions R200: the STATUS word of either unit, field by field. -/
def Obligations.StatusWordFormat : Prop :=
  ∀ (s : State) (n : RegNo) (c : Control),
    (n = 0x02#5 ∧ c = s.enc.ctl) ∨ (n = 0x0B#5 ∧ c = s.dec.ctl) →
      (readReg n s).getLsbD 0 = c.busy ∧ (readReg n s).getLsbD 1 = c.done
      ∧ ((readReg n s).extractLsb' 2 2).toNat =
          (match c.err with | .none => 0 | .malformedVarint => 1 | .endOfInput => 2 | .illegalCmd => 3)
      ∧ (readReg n s).getLsbD 4 = c.ovr ∧ ∀ k, 5 ≤ k → (readReg n s).getLsbD k = false

/-- 10_state R27: a write to a STATUS register clears OVR when bit 4 is 1, leaves it when bit 4 is 0, and changes nothing
else. -/
def Obligations.StatusWriteClearsOvr : Prop :=
  ∀ (v : Word) (s : State),
    runEvent (.hostWrite 0x02#5 v) s =
      .next { s with enc := { s.enc with ctl := { s.enc.ctl with ovr := s.enc.ctl.ovr && !v.getLsbD 4 } } }
    ∧ runEvent (.hostWrite 0x0B#5 v) s =
      .next { s with dec := { s.dec with ctl := { s.dec.ctl with ovr := s.dec.ctl.ovr && !v.getLsbD 4 } } }

/-- 10_state R24, R37: a write to a read-only register (ENC_LEN, ENC_OBUF_LO, ENC_OBUF_HI, DEC_LEN, DEC_RESULT) or to a
reserved number is ignored. -/
def Obligations.ReadOnlyWritesIgnored : Prop :=
  ∀ (n : RegNo) (v : Word) (s : State),
    (3 ≤ n.toNat ∧ n.toNat ≤ 7) ∨ 12 ≤ n.toNat → runEvent (.hostWrite n v) s = .next s

/-- 10_state R26, 70_reset_and_hazards R236: ENC_VAL takes every 64-bit value at every time, and the running operation, if any,
is as before. -/
def Obligations.EncValWrite : Prop :=
  ∀ (v : Word) (s : State),
    runEvent (.hostWrite 0x01#5 v) s = .next { s with encVal := v } ∧ readReg 0x01#5 { s with encVal := v } = v

/-- 10_state R31, R32, R33: writes to the decoder's input registers while the decoder is idle: which bytes they set, that
they leave every other byte and all other state alone, and what reads back. -/
def Obligations.DecoderInputWrites : Prop :=
  ∀ (v : Word) (s : State), s.dec.ctl.busy = false → memWf s.dec.ibuf = true →
    (∃ m, runEvent (.hostWrite 0x08#5 v) s = .next { s with dec := { s.dec with ibuf := m } } ∧ memWf m = true
      ∧ (∀ k, k < 8 → readByte m k = v.extractLsb' (8 * k) 8)
      ∧ (∀ k, 8 ≤ k → readByte m k = readByte s.dec.ibuf k)
      ∧ readReg 0x08#5 { s with dec := { s.dec with ibuf := m } } = v)
    ∧ (∃ m, runEvent (.hostWrite 0x09#5 v) s = .next { s with dec := { s.dec with ibuf := m } } ∧ memWf m = true
      ∧ readByte m 8 = v.extractLsb' 0 8 ∧ readByte m 9 = v.extractLsb' 8 8
      ∧ (∀ k, k < 8 ∨ 10 ≤ k → readByte m k = readByte s.dec.ibuf k)
      ∧ (readReg 0x09#5 { s with dec := { s.dec with ibuf := m } }).toNat = v.toNat % 2 ^ 16)
    ∧ runEvent (.hostWrite 0x0A#5 v) s = .next { s with dec := { s.dec with ilen := v.setWidth 4 } }

/-- 70_reset_and_hazards R234, 60_exceptions R214: a write to DEC_IBUF_LO, DEC_IBUF_HI or DEC_ILEN while the decoder is busy is
the fault, in either mode. -/
def Obligations.HazardFault : Prop :=
  ∀ (n : RegNo) (v : Word) (s : State), 8 ≤ n.toNat → n.toNat ≤ 10 → s.dec.ctl.busy = true →
    runEvent (.hostWrite n v) s = .fault .hazardIbufWriteWhileBusy

/-- 20_memory R65, 60_exceptions R214: an access that is not a whole-register access is refused, in every state. -/
def Obligations.PartialAccessRefused : Prop :=
  ∀ (a : PartialAccess) (s : State), runEvent (.hostPartial a) s = .refused .refusedPartialAccess

/-- 20_memory R63, 10_state R29, R30: where each byte of OBUF and of IBUF stands in the LO and HI registers, the rest reading
0. -/
def Obligations.BufferPacking : Prop :=
  ∀ s : State,
    (∀ k, k < 8 → (readReg 0x04#5 s).extractLsb' (8 * k) 8 = readByte s.enc.obuf k
      ∧ (readReg 0x08#5 s).extractLsb' (8 * k) 8 = readByte s.dec.ibuf k)
    ∧ (∀ k, 8 ≤ k → k < 10 → (readReg 0x05#5 s).extractLsb' (8 * (k - 8)) 8 = readByte s.enc.obuf k
      ∧ (readReg 0x09#5 s).extractLsb' (8 * (k - 8)) 8 = readByte s.dec.ibuf k)
    ∧ (readReg 0x05#5 s).toNat < 2 ^ 16 ∧ (readReg 0x09#5 s).toNat < 2 ^ 16

/-! ### Reset -/

/-- 70_reset_and_hazards R230 with the table of 10_state R42: in the step of reset every state element of the block takes its
reset value, and the sink's bytes and the source's responses stay as they are. What the model's own records do is log
entry 6. -/
def Obligations.ResetStep : Prop :=
  ∀ s : State, ∃ t : State, runEvent .reset s = .next t
    ∧ (t.enc.ctl.busy = false ∧ t.enc.ctl.done = false ∧ t.enc.ctl.ovr = false ∧ t.enc.ctl.err = .none
      ∧ t.enc.ctl.signed = false ∧ t.enc.ctl.buffer = false ∧ t.enc.ctl.width = .w32 ∧ t.enc.ctl.cnt = 0#4
      ∧ t.enc.work = 0#64 ∧ (∀ k, readByte t.enc.obuf k = 0x00#8) ∧ t.encVal = 0#64)
    ∧ (t.dec.ctl.busy = false ∧ t.dec.ctl.done = false ∧ t.dec.ctl.ovr = false ∧ t.dec.ctl.err = .none
      ∧ t.dec.ctl.signed = false ∧ t.dec.ctl.buffer = false ∧ t.dec.ctl.width = .w32 ∧ t.dec.ctl.cnt = 0#4
      ∧ t.dec.acc = 0#64 ∧ t.dec.off = 0#7 ∧ (∀ k, readByte t.dec.ibuf k = 0x00#8) ∧ t.dec.ilen = 0#4
      ∧ t.dec.result = 0#64)
    ∧ t.sink = s.sink ∧ t.source = s.source ∧ t.sourcePos = s.sourcePos

/-- 10_state R42: every host-readable register reads 0 after the step of reset, and in the state the machine starts in. -/
def Obligations.ResetReadsZero : Prop :=
  (∀ (s t : State) (n : RegNo), runEvent .reset s = .next t → readReg n t = 0#64)
  ∧ ∀ n : RegNo, readReg n State.reset = 0#64

/-! ### The encoder -/

/-- 40_encoder R106 to R108, stream mode: one byte goes to the sink, cnt advances by one, and the value is shifted right by 7
bits with zeros, or the operation completes. -/
def Obligations.EncoderStreamStep : Prop :=
  ∀ s : State, s.enc.ctl.busy = true → s.enc.ctl.buffer = false →
    runEvent (.encoder true) s = .next { s with
      sink := s.sink ++ [BitVec.ofNat 8 (if s.enc.work.toNat < 128 then s.enc.work.toNat else s.enc.work.toNat % 128 + 128)]
      enc :=
        if s.enc.work.toNat < 128 then { s.enc with
          ctl := { s.enc.ctl with busy := false, done := true, err := .none, cnt := s.enc.ctl.cnt + 1#4 } }
        else { s.enc with
          ctl := { s.enc.ctl with cnt := s.enc.ctl.cnt + 1#4 }, work := BitVec.ofNat 64 (s.enc.work.toNat / 128) } }

/-- 40_encoder R106 to R108, buffer mode: the byte goes to OBUF at index cnt, whatever the sink does, and every other byte of
OBUF stays. At an index of 10 or more, which no run reaches, no byte is written (the model's choice, log entry 7). -/
def Obligations.EncoderBufferStep : Prop :=
  ∀ (s : State) (a : Bool), s.enc.ctl.busy = true → s.enc.ctl.buffer = true →
    ∃ m : Mem,
      runEvent (.encoder a) s = .next { s with enc := (
          if s.enc.work.toNat < 128 then { s.enc with
            obuf := m, ctl := { s.enc.ctl with busy := false, done := true, err := .none, cnt := s.enc.ctl.cnt + 1#4 } }
          else { s.enc with
            obuf := m, ctl := { s.enc.ctl with cnt := s.enc.ctl.cnt + 1#4 }
            work := BitVec.ofNat 64 (s.enc.work.toNat / 128) }) }
      ∧ (∀ k, k ≠ s.enc.ctl.cnt.toNat → readByte m k = readByte s.enc.obuf k)
      ∧ (memWf s.enc.obuf = true → memWf m = true)
      ∧ (memWf s.enc.obuf = true → s.enc.ctl.cnt.toNat < 10 → readByte m s.enc.ctl.cnt.toNat =
          BitVec.ofNat 8 (if s.enc.work.toNat < 128 then s.enc.work.toNat else s.enc.work.toNat % 128 + 128))
      ∧ (10 ≤ s.enc.ctl.cnt.toNat → m = s.enc.obuf)

/-- 40_encoder R107, 41_decoder R143, 70_reset_and_hazards R237: a turn in which the sink does not accept, or the source does
not answer, or the unit is idle, changes nothing. -/
def Obligations.StalledTurns : Prop :=
  ∀ (s : State) (a : Bool),
    (s.enc.ctl.busy = false ∨ (s.enc.ctl.buffer = false ∧ a = false) → runEvent (.encoder a) s = .next s)
    ∧ (s.dec.ctl.busy = false ∨ (s.dec.ctl.buffer = false ∧ a = false) → runEvent (.decoder a) s = .next s)

/-- The frame of the units' turns: an encoder turn changes only the encoder and, in stream mode, the sink; a decoder turn only
the decoder and, in stream mode, the source. Latched fields, OVR, IBUF and DEC_ILEN stay. -/
def Obligations.TurnFrames : Prop :=
  ∀ (a : Bool) (s t : State),
    (runEvent (.encoder a) s = .next t →
      t = { s with enc := t.enc, sink := t.sink } ∧ (s.enc.ctl.buffer = true → t.sink = s.sink)
      ∧ (s.enc.ctl.buffer = false → t.enc.obuf = s.enc.obuf)
      ∧ t.enc.ctl.ovr = s.enc.ctl.ovr ∧ t.enc.ctl.signed = s.enc.ctl.signed ∧ t.enc.ctl.width = s.enc.ctl.width
      ∧ t.enc.ctl.buffer = s.enc.ctl.buffer)
    ∧ (runEvent (.decoder a) s = .next t →
      t = { s with dec := t.dec, source := t.source, sourcePos := t.sourcePos }
      ∧ (s.dec.ctl.buffer = true → t.source = s.source ∧ t.sourcePos = s.sourcePos)
      ∧ t.dec.ibuf = s.dec.ibuf ∧ t.dec.ilen = s.dec.ilen
      ∧ t.dec.ctl.ovr = s.dec.ctl.ovr ∧ t.dec.ctl.signed = s.dec.ctl.signed ∧ t.dec.ctl.width = s.dec.ctl.width
      ∧ t.dec.ctl.buffer = s.dec.ctl.buffer)

/-- 40_encoder R100: zigzag_W as integers (two's complement, log entry 9) and in both its forms, at every width. -/
def Obligations.ZigzagIntegers : Prop :=
  ∀ (n : Nat) (x : BitVec n), 0 < n →
    ((zigzag x).toNat : Int) = (if 0 ≤ x.toInt then 2 * x.toInt else -2 * x.toInt - 1)
    ∧ zigzag x = (x <<< 1) ^^^ x.sshiftRight (n - 1)
    ∧ zigzag x = (if x.getLsbD (n - 1) then ~~~(x <<< 1) else x <<< 1)

/-- 30_encoding R86, 40_encoder R105: the encoder's operand as an integer: ENC_VAL[W-1:0] itself, or the zig-zag of its signed
reading (two's complement, log entry 9). -/
def Obligations.EncoderOperandIntegers : Prop :=
  ∀ (w : Width) (x : Word),
    (encoderOperand false w x).toNat = x.toNat % 2 ^ w.bits
    ∧ ((encoderOperand true w x).toNat : Int) =
        (let n := (x.toNat : Int).bmod (2 ^ w.bits); if 0 ≤ n then 2 * n else -2 * n - 1)
    ∧ ∀ signed : Bool, (encoderOperand signed w x).toNat < 2 ^ w.bits

/-- 30_encoding R84: len(v) is the least k with 1 ≤ k and v < 2^(7k); the encoder's output has that many bytes; no W-bit value
needs more than MAXB(W) = ⌈W/7⌉. -/
def Obligations.EncodedLength : Prop :=
  ∀ v : Word,
    1 ≤ encodedLen v ∧ v.toNat < 2 ^ (7 * encodedLen v)
    ∧ (∀ k, 1 ≤ k → v.toNat < 2 ^ (7 * k) → encodedLen v ≤ k)
    ∧ (encodeUnsigned v).length = encodedLen v
    ∧ ∀ w : Width, maxBytes w = (w.bits + 6) / 7 ∧ (v.toNat < 2 ^ w.bits → encodedLen v ≤ maxBytes w)

/-- 40_encoder R104: the closed form of the encode loop, with its consequences (a) to (e). -/
def Obligations.EncodeClosedForm : Prop :=
  (∀ (v : Word) (j : Nat), j < encodedLen v →
    (encodeUnsigned v)[j]? = some (BitVec.ofNat 8
      (v.toNat / 2 ^ (7 * j) % 128 + if j + 1 < encodedLen v then 128 else 0)))
  ∧ (∀ (v : Word) (w : Width), v.toNat < 2 ^ w.bits →
      1 ≤ (encodeUnsigned v).length ∧ (encodeUnsigned v).length ≤ maxBytes w)
  ∧ encodeUnsigned 0#64 = [0x00#8]
  ∧ (∀ v : Word, 2 ≤ encodedLen v → (encodeUnsigned v).getLast? ≠ some 0x00#8)
  ∧ (∀ x : Word, x.toNat < 2 ^ 32 → encodedBytes false .w32 x = encodedBytes false .w64 x)
  ∧ (∀ x y : Word, x.toNat < y.toNat → encodedLen x ≤ encodedLen y)

/-- 30_encoding R81: what the encoder produces is a varint of the value: C = 1 in every byte but the last, and the groups,
least significant first, sum to the value. -/
def Obligations.EncodedValue : Prop :=
  ∀ v : Word, varintValue (encodeUnsigned v) = v.toNat ∧ contRun (encodeUnsigned v) + 1 = (encodeUnsigned v).length

/-- 40_encoder R106 to R108 and the command rules R110 to R113: each stream-mode VENC command (vencU32, vencS32, vencU64,
vencS64), issued to an idle encoder whose sink accepts, delivers the encoding of its operand and completes. -/
def Obligations.StreamEncodeWhole : Prop :=
  ∀ (i : Instr) (s : State) (n : Nat), i.unit = .enc → i.buffer = false → s.enc.ctl.busy = false →
    let v := encoderOperand i.signed i.width s.encVal
    encodedLen v ≤ n →
      runEvents (issue i :: List.replicate n (.encoder true)) s = .next { s with
        sink := s.sink ++ encodeUnsigned v
        enc := {
          ctl := { busy := false, done := true, ovr := s.enc.ctl.ovr, err := .none, signed := i.signed, width := i.width,
                   buffer := false, cnt := BitVec.ofNat 4 (encodedLen v) }
          work := v >>> (7 * (encodedLen v - 1))
          obuf := s.enc.obuf } }

/-- 40_encoder R106 to R108 and the command rules R114 to R117: each buffer-mode VENC command (vencU32Buf, vencS32Buf,
vencU64Buf, vencS64Buf), issued to an idle encoder, leaves the encoding of its operand in OBUF with zeros after it and
completes, whatever the sink does. -/
def Obligations.BufferEncodeWhole : Prop :=
  ∀ (i : Instr) (s : State) (n : Nat) (a : Bool), i.unit = .enc → i.buffer = true → s.enc.ctl.busy = false →
    let v := encoderOperand i.signed i.width s.encVal
    encodedLen v ≤ n → ∃ m : Mem,
      runEvents (issue i :: List.replicate n (.encoder a)) s = .next { s with
        enc := {
          ctl := { busy := false, done := true, ovr := s.enc.ctl.ovr, err := .none, signed := i.signed, width := i.width,
                   buffer := true, cnt := BitVec.ofNat 4 (encodedLen v) }
          work := v >>> (7 * (encodedLen v - 1))
          obuf := m } }
      ∧ memWf m = true ∧ ∀ k, readByte m k = (encodeUnsigned v).getD k 0x00#8

/-- 20_memory R69 with 40_encoder R108: under every interleaving of the agents' steps that neither resets the block nor writes
another command for the encoder, an issued VENC command ends, once it has had its turns, with the encoding of the ENC_VAL of
its acceptance: in the sink, or in OBUF. -/
def Obligations.EncodeUnderEveryInterleaving : Prop :=
  ∀ (i : Instr) (es : List Event) (s t : State), i.unit = .enc → s.enc.ctl.busy = false →
    (∀ e ∈ es, sparesUnit .enc e = true) → runEvents (issue i :: es) s = .next t →
    encodedLen (encoderOperand i.signed i.width s.encVal) ≤ encoderTurns i.buffer es →
      t.enc.ctl.busy = false ∧ t.enc.ctl.done = true ∧ t.enc.ctl.err = .none
      ∧ t.enc.ctl.cnt.toNat = (encodedBytes i.signed i.width s.encVal).length
      ∧ (i.buffer = false →
          t.sink = s.sink ++ encodedBytes i.signed i.width s.encVal ∧ t.enc.obuf = s.enc.obuf)
      ∧ (i.buffer = true → t.sink = s.sink
          ∧ ∀ k, readByte t.enc.obuf k = (encodedBytes i.signed i.width s.encVal).getD k 0x00#8)

/-- 40_encoder R109: stream/buffer parity, and the same bytes at both widths for a value of both ranges. -/
def Obligations.EncodeParity : Prop :=
  (∀ (i j : Instr) (s t u : State), i.unit = .enc → j.unit = .enc → i.signed = j.signed → i.width = j.width →
    i.buffer = false → j.buffer = true → s.enc.ctl.busy = false →
    runEvents (issue i :: List.replicate (maxBytes i.width) (.encoder true)) s = .next t →
    runEvents (issue j :: List.replicate (maxBytes i.width) (.encoder true)) s = .next u →
      t.sink = s.sink ++ bufferBytes u.enc.obuf u.enc.ctl.cnt.toNat)
  ∧ (∀ x : Word, x.toNat < 2 ^ 32 → encodedBytes false .w32 x = encodedBytes false .w64 x)
  ∧ (∀ x : Word, -2 ^ 31 ≤ x.toInt → x.toInt < 2 ^ 31 → encodedBytes true .w32 x = encodedBytes true .w64 x)

/-! ### The decoder -/

/-- 41_decoder R140: unzigzag_W as integers (two's complement, log entry 9), in the source's three steps and in its closed
form, at every width. -/
def Obligations.UnzigzagIntegers : Prop :=
  ∀ (n : Nat) (r : BitVec n), 0 < n →
    (unzigzag r).toInt = (if r.toNat % 2 = 0 then (r.toNat : Int) / 2 else -(((r.toNat : Int) + 1) / 2))
    ∧ unzigzag r = ((((r <<< (n - 1)).sshiftRight (n - 1)) ^^^ r).sshiftRight 1) ^^^ (r &&& BitVec.twoPow n (n - 1))
    ∧ unzigzag r = (r >>> 1) ^^^ (0#n - (r &&& 1#n))

/-- 41_decoder R141: zig-zag and its inverse undo each other, on every value of every width. -/
def Obligations.ZigzagInverse : Prop :=
  ∀ (n : Nat) (x : BitVec n), 0 < n → unzigzag (zigzag x) = x ∧ zigzag (unzigzag x) = x

/-- 41_decoder R148, 10_state R35: DEC_RESULT as an integer (two's complement, log entry 9): the raw payload, or the inverse
zig-zag of it, sign-extended. -/
def Obligations.DecodedResultIntegers : Prop :=
  ∀ (w : Width) (raw : Word), raw.toNat < 2 ^ w.bits →
    (decodedResult false w raw).toNat = raw.toNat
    ∧ (decodedResult true w raw).toInt =
        (if raw.toNat % 2 = 0 then (raw.toNat : Int) / 2 else -(((raw.toNat : Int) + 1) / 2))

/-- Past the list of responses that the state holds, the source answers with a free value: a turn of the decoder is then the turn
with that response at the head of the list (log entry 4, the model's own way to hold the source of 41_decoder R143). -/
def Obligations.EmptySourceAnswersFreely : Prop :=
  ∀ s : State, s.dec.ctl.busy = true → s.dec.ctl.buffer = false → s.source = [] →
    runEvent (.decoder true) s =
      runEvent (.decoder true) { s with source := [Config.freeResponse s.sourcePos], sourcePos := s.sourcePos + 1 }

/-- 60_exceptions R202 and R205 with 41_decoder R143, R144: where a decode raises EndOfInput, and what that leaves: DEC_LEN,
DEC_RESULT and everything else as they were, the response taken from the source. (A response past the source's list:
`EmptySourceAnswersFreely`.) -/
def Obligations.DecoderEndOfInput : Prop :=
  ∀ s : State, s.dec.ctl.busy = true →
    (∀ rest, s.dec.ctl.buffer = false → s.source = .eoi :: rest →
      runEvent (.decoder true) s = .next { s with
        source := rest, dec := { s.dec with ctl := { s.dec.ctl with busy := false, done := true, err := .endOfInput } } })
    ∧ (∀ a, s.dec.ctl.buffer = true → min s.dec.ilen.toNat 10 ≤ s.dec.ctl.cnt.toNat →
      runEvent (.decoder a) s = .next { s with
        dec := { s.dec with ctl := { s.dec.ctl with busy := false, done := true, err := .endOfInput } } })

/-- 60_exceptions R201 and R205 with 41_decoder R145, R150: the MAXB(W)-th byte with C = 1 raises MalformedVarint, in either
mode and before the last-byte rule: counted, DEC_RESULT as it was. -/
def Obligations.DecoderMalformed : Prop :=
  ∀ (s u : State) (a last : Bool) (x : Byte), TakesByte s a x last u →
    128 ≤ x.toNat → s.dec.ctl.cnt.toNat + 1 = maxBytes s.dec.ctl.width →
      runEvent (.decoder a) s = .next { u with dec := { s.dec with ctl := { s.dec.ctl with
        busy := false, done := true, err := .malformedVarint, cnt := s.dec.ctl.cnt + 1#4 } } }

/-- 41_decoder R146: a byte with C = 1 that is neither the MAXB(W)-th nor the buffer's last is accumulated, and the decoder
stays busy. -/
def Obligations.DecoderContinues : Prop :=
  ∀ (s u : State) (a : Bool) (x : Byte), TakesByte s a x false u →
    128 ≤ x.toNat → s.dec.ctl.cnt.toNat + 1 ≠ maxBytes s.dec.ctl.width →
      runEvent (.decoder a) s = .next { u with dec := { s.dec with
        ctl := { s.dec.ctl with cnt := s.dec.ctl.cnt + 1#4 }
        acc := BitVec.ofNat 64
          ((s.dec.acc.toNat ||| (x.toNat % 128) <<< s.dec.off.toNat) % 2 ^ s.dec.ctl.width.bits)
        off := s.dec.off + 7#7 } }

/-- 41_decoder R147, R148: a byte with C = 0, or the buffer's last byte (unless R145 raised), ends the varint with its payload
group alone, and the operation completes with its result. -/
def Obligations.DecoderCompletes : Prop :=
  ∀ (s u : State) (a last : Bool) (x : Byte), TakesByte s a x last u →
    (x.toNat < 128 ∨ (last = true ∧ s.dec.ctl.cnt.toNat + 1 ≠ maxBytes s.dec.ctl.width)) →
      runEvent (.decoder a) s = .next { u with dec := { s.dec with
        ctl := { s.dec.ctl with busy := false, done := true, err := .none, cnt := s.dec.ctl.cnt + 1#4 }
        result := decodedResult s.dec.ctl.signed s.dec.ctl.width (BitVec.ofNat 64
          ((s.dec.acc.toNat ||| (x.toNat % 128) <<< s.dec.off.toNat) % 2 ^ s.dec.ctl.width.bits)) } }

/-- 41_decoder R152, R149 and the command rules R160 to R163: each stream-mode VDEC command (vdecU32, vdecS32, vdecU64,
vdecS64), issued to an idle decoder whose source answers, ends with the outcome of the whole decode, having taken from the
source exactly the responses that outcome needs. -/
def Obligations.StreamDecodeWhole : Prop :=
  ∀ (i : Instr) (s : State) (xs : List Byte),
    i.unit = .dec → i.buffer = false → s.dec.ctl.busy = false → SourceGives i.width s.source xs →
    ∃ t, runEvents (issue i :: List.replicate (maxBytes i.width) (.decoder true)) s = .next t
      ∧ t.dec.ctl.signed = i.signed ∧ t.dec.ctl.width = i.width
      ∧ Reports t.dec s.dec.result (decodeWhole i.width false xs)
      ∧ t.source = s.source.drop (responsesTaken (decodeWhole i.width false xs))
      ∧ t = { s with dec := t.dec, source := t.source }

/-- 41_decoder R152, R153 and the command rules R164 to R167: each buffer-mode VDEC command (vdecU32Buf, vdecS32Buf,
vdecU64Buf, vdecS64Buf), issued to an idle decoder, ends with the outcome of the whole decode of IBUF[0 .. L-1], whatever the
source does. -/
def Obligations.BufferDecodeWhole : Prop :=
  ∀ (i : Instr) (s : State) (a : Bool), i.unit = .dec → i.buffer = true → s.dec.ctl.busy = false →
    ∃ t, runEvents (issue i :: List.replicate (maxBytes i.width) (.decoder a)) s = .next t
      ∧ t.dec.ctl.signed = i.signed ∧ t.dec.ctl.width = i.width
      ∧ Reports t.dec s.dec.result (decodeWhole i.width true (bufferBytes s.dec.ibuf (min s.dec.ilen.toNat 10)))
      ∧ t.dec.ibuf = s.dec.ibuf ∧ t.dec.ilen = s.dec.ilen ∧ t = { s with dec := t.dec }

/-- 20_memory R69 with 41_decoder R152: under every interleaving of the agents' steps that neither resets the block nor writes
another command for the decoder, an issued VDEC command ends, once it has had its turns, with the outcome of the whole decode of
the input at its acceptance. -/
def Obligations.DecodeUnderEveryInterleaving : Prop :=
  ∀ (i : Instr) (es : List Event) (s t : State) (xs : List Byte),
    i.unit = .dec → s.dec.ctl.busy = false → (∀ e ∈ es, sparesUnit .dec e = true) → runEvents (issue i :: es) s = .next t →
    maxBytes i.width ≤ decoderTurns i.buffer es → (i.buffer = false → SourceGives i.width s.source xs) →
      let o := if i.buffer then decodeWhole i.width true (bufferBytes s.dec.ibuf (min s.dec.ilen.toNat 10))
        else decodeWhole i.width false xs
      Reports t.dec s.dec.result o ∧ t.dec.ctl.signed = i.signed ∧ t.dec.ctl.width = i.width
      ∧ t.source = (if i.buffer then s.source else s.source.drop (responsesTaken o))

/-- 41_decoder R155, stream mode: what a VENC command delivers to the sink, a VDEC command of the same width and signedness
decodes back to the operand, extended, having taken exactly those bytes; DEC_LEN = ENC_LEN. -/
def Obligations.StreamRoundTrip : Prop :=
  ∀ (i j : Instr) (s : State), i.unit = .enc → j.unit = .dec → i.signed = j.signed → i.width = j.width →
    i.buffer = false → j.buffer = false → s.enc.ctl.busy = false → s.dec.ctl.busy = false →
    ∃ (t : State) (bs : List Byte),
      runEvents (issue i :: List.replicate (maxBytes i.width) (.encoder true)) s = .next t ∧ t.sink = s.sink ++ bs
      ∧ ∀ rest : List Response, ∃ u : State,
        runEvents (issue j :: List.replicate (maxBytes i.width) (.decoder true)) { t with source := bs.map .byte ++ rest }
          = .next u
        ∧ u.dec.ctl.done = true ∧ u.dec.ctl.err = .none
        ∧ readReg 0x0D#5 u = extendWidth i.signed i.width s.encVal ∧ readReg 0x0C#5 u = readReg 0x03#5 t
        ∧ u.source = rest

/-- 41_decoder R155, buffer mode, through the host registers: the host copies ENC_OBUF_LO, ENC_OBUF_HI and ENC_LEN into
DEC_IBUF_LO, DEC_IBUF_HI and DEC_ILEN, and the decode gives back the operand, extended; DEC_LEN = ENC_LEN. -/
def Obligations.BufferRoundTrip : Prop :=
  ∀ (i j : Instr) (s : State) (a b : Bool), i.unit = .enc → j.unit = .dec → i.signed = j.signed → i.width = j.width →
    i.buffer = true → j.buffer = true → s.enc.ctl.busy = false → s.dec.ctl.busy = false → memWf s.dec.ibuf = true →
    ∃ t u : State,
      runEvents (issue i :: List.replicate (maxBytes i.width) (.encoder a)) s = .next t
      ∧ runEvents ([.hostWrite 0x08#5 (readReg 0x04#5 t), .hostWrite 0x09#5 (readReg 0x05#5 t),
          .hostWrite 0x0A#5 (readReg 0x03#5 t), issue j] ++ List.replicate (maxBytes i.width) (.decoder b)) t = .next u
      ∧ u.dec.ctl.done = true ∧ u.dec.ctl.err = .none
      ∧ readReg 0x0D#5 u = extendWidth i.signed i.width s.encVal ∧ readReg 0x0C#5 u = readReg 0x03#5 t

/-! ### The whole machine -/

/-- The invariant of 10_state R40 holds at reset. -/
def Obligations.InvariantAtReset : Prop := State.reset.Inv

/-- Every step keeps the invariant of 10_state R40, whichever agent steps. The clauses of `Inv` beyond R40 are the model's
inference, which makes the invariant inductive. -/
def Obligations.InvariantKept : Prop := ∀ s t : State, s.Inv → step s = .next t → t.Inv

/-- 60_exceptions R214: no fault but the hazard and no refusal but that of a partial access exists: every other agent step has
a next state, in every state. And a run that has stopped is not set going by any later step (log entry 14). -/
def Obligations.OnlyTheHazardFaults : Prop :=
  (∀ (e : Event) (s : State),
    (∀ f, runEvent e s = .fault f ↔ f = .hazardIbufWriteWhileBusy ∧ s.dec.ctl.busy = true
        ∧ ∃ n v, e = .hostWrite n v ∧ 8 ≤ n.toNat ∧ n.toNat ≤ 10)
    ∧ (∀ r, runEvent e s = .refused r ↔ r = .refusedPartialAccess ∧ ∃ p, e = .hostPartial p))
  ∧ ∀ (es later : List Event) (s : State),
    (∀ f, runEvents es s = .fault f → runEvents (es ++ later) s = .fault f)
    ∧ (∀ r, runEvents es s = .refused r → runEvents (es ++ later) s = .refused r)

/-- 70_reset_and_hazards R239: from every state that meets the invariant, a busy unit is done after at most MAXB(W) - cnt of its
enabled turns, under every interleaving that neither resets the block nor writes it a command. -/
def Obligations.OperationsEndWithinMaxBytes : Prop :=
  ∀ (es : List Event) (s t : State), s.Inv → runEvents es s = .next t →
    ((∀ e ∈ es, sparesUnit .enc e = true) → s.enc.ctl.busy = true →
      maxBytes s.enc.ctl.width - s.enc.ctl.cnt.toNat ≤ encoderTurns s.enc.ctl.buffer es →
        t.enc.ctl.busy = false ∧ t.enc.ctl.done = true)
    ∧ ((∀ e ∈ es, sparesUnit .dec e = true) → s.dec.ctl.busy = true →
      maxBytes s.dec.ctl.width - s.dec.ctl.cnt.toNat ≤ decoderTurns s.dec.ctl.buffer es →
        t.dec.ctl.busy = false ∧ t.dec.ctl.done = true)

/-- 70_reset_and_hazards R240, R241: along every infinite run whose states meet the invariant at the start and which is fair to
a unit, that unit's operation ends: at some later step it is idle, with DONE = 1, or that step is reset. -/
def Obligations.OperationsEndUnderFairness : Prop :=
  ∀ (sched : Nat → Event) (path : Nat → State), (path 0).Inv → FollowsSchedule sched path →
    (EncoderFair sched path → ∀ n, (path n).enc.ctl.busy = true →
      ∃ m, n ≤ m ∧ (path (m + 1)).enc.ctl.busy = false ∧ (sched m = .reset ∨ (path (m + 1)).enc.ctl.done = true))
    ∧ (DecoderFair sched path → ∀ n, (path n).dec.ctl.busy = true →
      ∃ m, n ≤ m ∧ (path (m + 1)).dec.ctl.busy = false ∧ (sched m = .reset ∨ (path (m + 1)).dec.ctl.done = true))

/-- 10_state R41, 60_exceptions R213: the units share no state. What any sequence of agent steps makes of the encoder depends on
the encoder and ENC_VAL alone, and what it makes of the decoder on the decoder and the source alone. -/
def Obligations.UnitsIndependent : Prop :=
  ∀ (es : List Event) (s s' t t' : State), runEvents es s = .next t → runEvents es s' = .next t' →
    (s.enc = s'.enc → s.encVal = s'.encVal → t.enc = t'.enc ∧ t.encVal = t'.encVal)
    ∧ (s.dec = s'.dec → s.source = s'.source → s.sourcePos = s'.sourcePos →
        t.dec = t'.dec ∧ t.source = t'.source ∧ t.sourcePos = t'.sourcePos)

/-- 20_memory R70 (an illegal command counted among the commands, by 60_exceptions R203): after DONE = 1, with no command
written to that unit and no reset since, every read of the unit's result registers and of ERR returns the same values,
whatever the other agents do. -/
def Obligations.ResultsStableAfterDone : Prop :=
  ∀ (es : List Event) (s t : State), s.Inv → runEvents es s = .next t →
    ((∀ e ∈ es, sparesUnit .enc e = true) → s.enc.ctl.done = true →
      t.enc.ctl.done = true ∧ t.enc.ctl.err = s.enc.ctl.err ∧ readReg 0x03#5 t = readReg 0x03#5 s
      ∧ readReg 0x04#5 t = readReg 0x04#5 s ∧ readReg 0x05#5 t = readReg 0x05#5 s)
    ∧ ((∀ e ∈ es, sparesUnit .dec e = true) → s.dec.ctl.done = true →
      t.dec.ctl.done = true ∧ t.dec.ctl.err = s.dec.ctl.err ∧ readReg 0x0C#5 t = readReg 0x0C#5 s
      ∧ readReg 0x0D#5 t = readReg 0x0D#5 s)

/-- 10_state R35: DEC_RESULT is written only by a successful decoder completion (and by reset). -/
def Obligations.ResultWrittenOnlyBySuccess : Prop :=
  ∀ (e : Event) (s t : State), runEvent e s = .next t → t.dec.result ≠ s.dec.result →
    e = .reset ∨ ∃ a, e = .decoder a ∧ s.dec.ctl.busy = true ∧ t.dec.ctl.busy = false ∧ t.dec.ctl.done = true
      ∧ t.dec.ctl.err = .none

/-- 30_encoding R94, 70_reset_and_hazards R231: no command aborts an operation: a busy unit stops being busy only in a turn of its
own that sets DONE, or by reset. -/
def Obligations.OnlyResetAbandons : Prop :=
  ∀ (e : Event) (s t : State), runEvent e s = .next t →
    (s.enc.ctl.busy = true → t.enc.ctl.busy = false → e = .reset ∨ ∃ a, e = .encoder a ∧ t.enc.ctl.done = true)
    ∧ (s.dec.ctl.busy = true → t.dec.ctl.busy = false → e = .reset ∨ ∃ a, e = .decoder a ∧ t.dec.ctl.done = true)

/-- 20_memory R67, R75, R76: the sink only grows, one byte at a time and only in an accepted turn of a busy stream-mode
encoder; the source is only consumed, one response at a time and only in an answered turn of a busy stream-mode decoder.
Nothing is rolled back, by reset neither. -/
def Obligations.StreamsOneByOne : Prop :=
  ∀ (e : Event) (s t : State), runEvent e s = .next t →
    (t.sink = s.sink ∨ (e = .encoder true ∧ s.enc.ctl.busy = true ∧ s.enc.ctl.buffer = false ∧ ∃ b, t.sink = s.sink ++ [b]))
    ∧ ((t.source = s.source ∧ t.sourcePos = s.sourcePos)
      ∨ (e = .decoder true ∧ s.dec.ctl.busy = true ∧ s.dec.ctl.buffer = false
        ∧ ((∃ r, s.source = r :: t.source ∧ t.sourcePos = s.sourcePos)
          ∨ (s.source = [] ∧ t.source = [] ∧ t.sourcePos = s.sourcePos + 1))))
end

