-- ==== Sys2Proof/Laws/Memory.lean ====
section
/-! SUPPORT. The laws of a byte buffer: a read after a write, that a write leaves every other byte alone, that every memory
operation keeps the canonical form, that the form is canonical, and where packed bytes stand. -/

namespace Sys2Proof.Machine

theorem memWf_nil : memWf [] = true := rfl

theorem readByte_below {m : Mem} : ∀ {lo i : Nat}, memWfFrom lo m = true → i < lo → readByte m i = 0#8 := by
  induction m with
  | nil => intro lo i _ _; rfl
  | cons c rest ih =>
    intro lo i h hi
    obtain ⟨a, b⟩ := c
    simp only [memWfFrom, Bool.and_eq_true, decide_eq_true_eq] at h
    have hne : a ≠ i := by omega
    simp only [readByte, hne, if_false]
    exact ih h.2 (by omega)

theorem memWfFrom_mono {m : Mem} {lo lo' : Nat} (h : memWfFrom lo m = true) (hl : lo' ≤ lo) : memWfFrom lo' m = true := by
  cases m with
  | nil => rfl
  | cons c rest =>
    obtain ⟨a, b⟩ := c
    simp only [memWfFrom, Bool.and_eq_true, decide_eq_true_eq] at h ⊢
    exact ⟨⟨⟨by omega, h.1.1.2⟩, h.1.2⟩, h.2⟩

theorem memWfFrom_consCell {m : Mem} {lo i : Nat} {b : Byte} (hl : lo ≤ i) (hi : i < 10)
    (h : memWfFrom (i + 1) m = true) : memWfFrom lo (consCell i b m) = true := by
  unfold consCell
  split
  · exact memWfFrom_mono h (by omega)
  · next hb => simp [memWfFrom, hl, hi, hb, h]

theorem memWfFrom_insertByte {m : Mem} : ∀ {lo i : Nat} {b : Byte}, memWfFrom lo m = true → lo ≤ i → i < 10 →
    memWfFrom lo (insertByte m i b) = true := by
  induction m with
  | nil => intro lo i b _ hl hi; exact memWfFrom_consCell hl hi rfl
  | cons c rest ih =>
    intro lo i b h hl hi
    obtain ⟨a, x⟩ := c
    have h' := h
    simp only [memWfFrom, Bool.and_eq_true, decide_eq_true_eq] at h'
    simp only [insertByte]
    split
    · next hia =>
      refine memWfFrom_consCell hl hi ?_
      simp only [memWfFrom, Bool.and_eq_true, decide_eq_true_eq]
      exact ⟨⟨⟨by omega, h'.1.1.2⟩, h'.1.2⟩, h'.2⟩
    · split
      · next hia => subst hia; exact memWfFrom_consCell hl hi h'.2
      · next h1 h2 =>
        simp only [memWfFrom, Bool.and_eq_true, decide_eq_true_eq]
        exact ⟨⟨⟨h'.1.1.1, h'.1.1.2⟩, h'.1.2⟩, ih h'.2 (by omega) hi⟩

/-- A write keeps the canonical form. -/
theorem memWf_writeByte {m : Mem} (i : Nat) (b : Byte) (h : memWf m = true) : memWf (writeByte m i b) = true := by
  unfold writeByte
  split
  · next hi => exact memWfFrom_insertByte h (Nat.zero_le i) hi
  · exact h

/-- A write at an index that does not exist writes no byte. -/
theorem writeByte_beyond (m : Mem) {i : Nat} (b : Byte) (hi : 10 ≤ i) : writeByte m i b = m := by
  simp [writeByte, Nat.not_lt.2 hi]

theorem readByte_consCell_ne {m : Mem} {i j : Nat} {b : Byte} (h : j ≠ i) :
    readByte (consCell i b m) j = readByte m j := by
  unfold consCell
  split
  · rfl
  · simp [readByte, Ne.symm h]

theorem readByte_insertByte_ne {m : Mem} {i j : Nat} {b : Byte} (h : j ≠ i) :
    readByte (insertByte m i b) j = readByte m j := by
  induction m with
  | nil => exact readByte_consCell_ne h
  | cons c rest ih =>
    obtain ⟨a, x⟩ := c
    simp only [insertByte]
    split
    · exact readByte_consCell_ne h
    · split
      · next hia => subst hia; rw [readByte_consCell_ne h]; simp [readByte, Ne.symm h]
      · simp [readByte, ih]

/-- A write leaves every other byte alone. -/
theorem readByte_writeByte_ne {m : Mem} {i j : Nat} {b : Byte} (h : j ≠ i) :
    readByte (writeByte m i b) j = readByte m j := by
  unfold writeByte
  split
  · exact readByte_insertByte_ne h
  · rfl

theorem readByte_consCell_same {m : Mem} {i : Nat} {b : Byte} (h : memWfFrom (i + 1) m = true) :
    readByte (consCell i b m) i = b := by
  unfold consCell
  split
  · next hb => rw [hb]; exact readByte_below h (by omega)
  · simp [readByte]

theorem readByte_insertByte_same {m : Mem} : ∀ {lo i : Nat} {b : Byte}, memWfFrom lo m = true →
    readByte (insertByte m i b) i = b := by
  induction m with
  | nil => intro lo i b _; exact readByte_consCell_same rfl
  | cons c rest ih =>
    intro lo i b h
    obtain ⟨a, x⟩ := c
    have h' := h
    simp only [memWfFrom, Bool.and_eq_true, decide_eq_true_eq] at h'
    simp only [insertByte]
    split
    · next hia =>
      refine readByte_consCell_same ?_
      simp only [memWfFrom, Bool.and_eq_true, decide_eq_true_eq]
      exact ⟨⟨⟨by omega, h'.1.1.2⟩, h'.1.2⟩, h'.2⟩
    · split
      · next hia => subst hia; exact readByte_consCell_same h'.2
      · next h1 h2 =>
        have hne : a ≠ i := fun e => h2 e.symm
        simp only [readByte, hne, if_false]
        exact ih h'.2

/-- A read after a write to the same index gives the byte written. -/
theorem readByte_writeByte_same {m : Mem} {i : Nat} (b : Byte) (h : memWf m = true) (hi : i < 10) :
    readByte (writeByte m i b) i = b := by
  simp only [writeByte, hi, if_true]
  exact readByte_insertByte_same h

/-- Packing a register's bytes into a buffer keeps the canonical form. -/
theorem memWf_unpackBytes : ∀ (n : Nat) {m : Mem} {base : Nat} (v : Word), memWf m = true →
    memWf (unpackBytes m base n v) = true
  | 0, _, _, _, h => h
  | n + 1, _, _, v, h => memWf_unpackBytes n (v >>> 8) (memWf_writeByte _ _ h)

/-- A register write leaves every byte outside its indexes alone. -/
theorem readByte_unpackBytes_outside : ∀ (n : Nat) {m : Mem} {base k : Nat} (v : Word), k < base ∨ base + n ≤ k →
    readByte (unpackBytes m base n v) k = readByte m k
  | 0, _, _, _, _, _ => rfl
  | n + 1, _, base, k, v, h => by
    rw [unpackBytes, readByte_unpackBytes_outside n (v >>> 8) (by omega)]
    exact readByte_writeByte_ne (by omega)

/-- Byte k of a register lands at index base + k. -/
theorem readByte_unpackBytes_inside : ∀ (n : Nat) {m : Mem} {base k : Nat} (v : Word), memWf m = true → base + n ≤ 10 →
    k < n → readByte (unpackBytes m base n v) (base + k) = v.extractLsb' (8 * k) 8
  | 0, _, _, _, _, _, _, hk => absurd hk (by omega)
  | n + 1, m, base, 0, v, h, hb, _ => by
    rw [unpackBytes, readByte_unpackBytes_outside n (v >>> 8) (by omega)]
    exact readByte_writeByte_same _ h (by omega)
  | n + 1, m, base, k + 1, v, h, hb, hk => by
    have e : base + (k + 1) = (base + 1) + k := by omega
    rw [unpackBytes, e, readByte_unpackBytes_inside n (v >>> 8) (memWf_writeByte _ _ h) (by omega) (by omega)]
    apply BitVec.eq_of_getLsbD_eq
    intro i hi
    simp only [BitVec.getLsbD_extractLsb', BitVec.getLsbD_ushiftRight, hi, decide_true, Bool.true_and]
    congr 1
    omega

/-- Bit j of packed bytes is bit j mod 8 of byte j / 8. -/
theorem getLsbD_packBytes : ∀ (n : Nat) (m : Mem) (base j : Nat), j < 64 →
    (packBytes m base n).getLsbD j = (decide (j < 8 * n) && (readByte m (base + j / 8)).getLsbD (j % 8))
  | 0, m, base, j, _ => by simp [packBytes]
  | n + 1, m, base, j, hj => by
    simp only [packBytes, BitVec.getLsbD_or, BitVec.getLsbD_setWidth, BitVec.getLsbD_shiftLeft, hj, decide_true,
      Bool.true_and]
    by_cases h8 : j < 8
    · have e : j / 8 = 0 := by omega
      have e2 : j % 8 = j := by omega
      have e3 : j < 8 * (n + 1) := by omega
      simp [h8, e, e2, e3]
    · have hz : (readByte m base).getLsbD j = false := BitVec.getLsbD_of_ge _ _ (by omega)
      have e : base + 1 + (j - 8) / 8 = base + j / 8 := by omega
      have e2 : (j - 8) % 8 = j % 8 := by omega
      have e3 : (j - 8 < 8 * n) = (j < 8 * (n + 1)) := by apply propext; omega
      rw [getLsbD_packBytes n m (base + 1) (j - 8) (by omega), e, e2]
      simp [h8, hz, e3]

theorem mem_ext_from : ∀ {m m' : Mem} {lo lo' : Nat}, memWfFrom lo m = true → memWfFrom lo' m' = true →
    (∀ i, readByte m i = readByte m' i) → m = m'
  | [], [], _, _, _, _, _ => rfl
  | [], (a, b) :: rest, _, _, _, h', e => by
    simp only [memWfFrom, Bool.and_eq_true] at h'
    have := e a
    simp [readByte] at this
    simp [← this] at h'
  | (a, b) :: rest, [], _, _, h, _, e => by
    simp only [memWfFrom, Bool.and_eq_true] at h
    have := e a
    simp [readByte] at this
    simp [this] at h
  | (a, b) :: rest, (a', b') :: rest', _, _, h, h', e => by
    simp only [memWfFrom, Bool.and_eq_true, decide_eq_true_eq, bne_iff_ne] at h h'
    have ha : a = a' := by
      rcases Nat.lt_trichotomy a a' with hlt | heq | hgt
      · have := e a
        have hne : a' ≠ a := by omega
        simp only [readByte, if_true, hne, if_false] at this
        rw [readByte_below h'.2 (by omega)] at this
        exact absurd this h.1.2
      · exact heq
      · have := e a'
        have hne : a ≠ a' := by omega
        simp only [readByte, if_true, hne, if_false] at this
        rw [readByte_below h.2 (by omega)] at this
        exact absurd this.symm h'.1.2
    subst ha
    have hb : b = b' := by simpa [readByte] using e a
    subst hb
    have hr : rest = rest' := mem_ext_from h.2 h'.2 (fun i => by
      by_cases hi : a = i
      · subst hi
        rw [readByte_below h.2 (by omega), readByte_below h'.2 (by omega)]
      · simpa [readByte, hi] using e i)
    rw [hr]

/-- The form is canonical: two buffers in it that read alike are equal data. -/
theorem mem_ext {m m' : Mem} (h : memWf m = true) (h' : memWf m' = true) (e : ∀ i, readByte m i = readByte m' i) :
    m = m' := mem_ext_from h h' e

/-- An index that does not exist reads 0x00 in a buffer in canonical form. -/
theorem readByte_beyond {m : Mem} : ∀ {lo i : Nat}, memWfFrom lo m = true → 10 ≤ i → readByte m i = 0#8 := by
  induction m with
  | nil => intro lo i _ _; rfl
  | cons c rest ih =>
    intro lo i h hi
    obtain ⟨a, b⟩ := c
    simp only [memWfFrom, Bool.and_eq_true, decide_eq_true_eq] at h
    have hne : a ≠ i := by omega
    simp only [readByte, hne, if_false]
    exact ih h.2 hi

end Sys2Proof.Machine
end

