-- ==== Sys2Proof/Laws/Operands.lean ====
section
/-! SUPPORT. What each operand form is as a number: one lemma per function. -/

namespace Sys2Proof.Machine

theorem keepWidth_toNat (w : Width) (x : Word) : (keepWidth w x).toNat = x.toNat % 2 ^ w.bits := by
  cases w
  · simp only [keepWidth, Width.bits, BitVec.toNat_setWidth]
    exact Nat.mod_eq_of_lt (by omega)
  · simp only [keepWidth, Width.bits]
    exact (Nat.mod_eq_of_lt x.isLt).symm

theorem group_toNat (b : Byte) : (group b).toNat = b.toNat % 128 := by
  simp [group, BitVec.extractLsb'_toNat]

theorem contBit_iff (b : Byte) : contBit b = true ↔ 128 ≤ b.toNat := by
  have h := b.isLt
  rw [contBit, BitVec.getLsbD, Nat.testBit_eq_decide_div_mod_eq]
  simp only [decide_eq_true_eq]
  omega

theorem moreBits_iff (v : Word) : moreBits v = true ↔ 128 ≤ v.toNat := by
  have h := v.isLt
  rw [moreBits, bne_iff_ne, ne_eq, ← BitVec.toNat_inj, BitVec.extractLsb'_toNat, Nat.shiftRight_eq_div_pow]
  simp only [BitVec.toNat_ofNat, Nat.zero_mod]
  omega

theorem outByte_toNat (v : Word) :
    (outByte v).toNat = if v.toNat < 128 then v.toNat else v.toNat % 128 + 128 := by
  have hm := moreBits_iff v
  unfold outByte
  by_cases h : moreBits v = true
  · have hv := hm.1 h
    rw [if_pos h, if_neg (by omega), BitVec.toNat_or, BitVec.toNat_setWidth, BitVec.extractLsb'_toNat]
    have e : v.toNat >>> 0 % 2 ^ 7 % 2 ^ 8 = v.toNat % 128 := by rw [Nat.shiftRight_zero]; omega
    have o := Nat.two_pow_add_eq_or_of_lt (i := 7) (b := v.toNat % 128) (by omega) 1
    rw [e, show (0x80#8).toNat = 2 ^ 7 * 1 from rfl, Nat.or_comm, ← o]
    omega
  · have hv : ¬ 128 ≤ v.toNat := fun k => h (hm.2 k)
    rw [if_neg h, if_pos (by omega), BitVec.extractLsb'_toNat]
    simp
    omega

theorem accumulate_toNat (w : Width) (acc : Word) (off : BitVec 7) (x : Byte) :
    (accumulate w acc off x).toNat = (acc.toNat ||| (x.toNat % 128) <<< off.toNat) % 2 ^ w.bits := by
  have hb : w.bits ≤ 64 := by cases w <;> decide
  rw [accumulate, keepWidth_toNat, BitVec.toNat_or, BitVec.toNat_shiftLeft, BitVec.toNat_setWidth, group_toNat,
    Nat.mod_eq_of_lt (a := x.toNat % 128) (by omega)]
  apply Nat.eq_of_testBit_eq
  intro i
  simp only [Nat.testBit_mod_two_pow, Nat.testBit_or]
  by_cases hi : i < w.bits
  · have : i < 64 := by omega
    simp [hi, this]
  · simp [hi]

theorem effectiveLen_le_ten (ilen : BitVec 4) : effectiveLen ilen ≤ 10 := Nat.min_le_right _ _

theorem maxBytes_le_ten (w : Width) : maxBytes w ≤ 10 := by cases w <;> decide

theorem maxBytes_pos (w : Width) : 0 < maxBytes w := by cases w <;> decide

/-- The input window of a buffer-mode decode has L bytes. -/
theorem bufferBytes_length (m : Mem) (n : Nat) : (bufferBytes m n).length = n := by simp [bufferBytes]

theorem bufferBytes_getElem? (m : Mem) (n k : Nat) (h : k < n) : (bufferBytes m n)[k]? = some (readByte m k) := by
  simp [bufferBytes, h]

end Sys2Proof.Machine
end

