-- ==== Sys2Proof/Laws/State.lean ====
section
/-! SUPPORT. One lemma per field per update of the state, true by rfl, so that no proof unfolds a record update. -/

namespace Sys2Proof.Machine

/-! `Control.drop` -/

@[simp] theorem Control.drop_busy (c : Control) : (c.drop).busy = c.busy := rfl
@[simp] theorem Control.drop_done (c : Control) : (c.drop).done = c.done := rfl
@[simp] theorem Control.drop_ovr (c : Control) : (c.drop).ovr = true := rfl
@[simp] theorem Control.drop_err (c : Control) : (c.drop).err = c.err := rfl
@[simp] theorem Control.drop_signed (c : Control) : (c.drop).signed = c.signed := rfl
@[simp] theorem Control.drop_width (c : Control) : (c.drop).width = c.width := rfl
@[simp] theorem Control.drop_buffer (c : Control) : (c.drop).buffer = c.buffer := rfl
@[simp] theorem Control.drop_cnt (c : Control) : (c.drop).cnt = c.cnt := rfl

/-! `Control.illegal` -/

@[simp] theorem Control.illegal_busy (c : Control) : (c.illegal).busy = c.busy := rfl
@[simp] theorem Control.illegal_done (c : Control) : (c.illegal).done = true := rfl
@[simp] theorem Control.illegal_ovr (c : Control) : (c.illegal).ovr = c.ovr := rfl
@[simp] theorem Control.illegal_err (c : Control) : (c.illegal).err = .illegalCmd := rfl
@[simp] theorem Control.illegal_signed (c : Control) : (c.illegal).signed = c.signed := rfl
@[simp] theorem Control.illegal_width (c : Control) : (c.illegal).width = c.width := rfl
@[simp] theorem Control.illegal_buffer (c : Control) : (c.illegal).buffer = c.buffer := rfl
@[simp] theorem Control.illegal_cnt (c : Control) : (c.illegal).cnt = 0#4 := rfl

/-! `Control.accept` -/

@[simp] theorem Control.accept_busy (sg : Bool) (w : Width) (b : Bool) (c : Control) : (c.accept sg w b).busy = true := rfl
@[simp] theorem Control.accept_done (sg : Bool) (w : Width) (b : Bool) (c : Control) : (c.accept sg w b).done = false := rfl
@[simp] theorem Control.accept_ovr (sg : Bool) (w : Width) (b : Bool) (c : Control) : (c.accept sg w b).ovr = c.ovr := rfl
@[simp] theorem Control.accept_err (sg : Bool) (w : Width) (b : Bool) (c : Control) : (c.accept sg w b).err = .none := rfl
@[simp] theorem Control.accept_signed (sg : Bool) (w : Width) (b : Bool) (c : Control) : (c.accept sg w b).signed = sg := rfl
@[simp] theorem Control.accept_width (sg : Bool) (w : Width) (b : Bool) (c : Control) : (c.accept sg w b).width = w := rfl
@[simp] theorem Control.accept_buffer (sg : Bool) (w : Width) (b : Bool) (c : Control) : (c.accept sg w b).buffer = b := rfl
@[simp] theorem Control.accept_cnt (sg : Bool) (w : Width) (b : Bool) (c : Control) : (c.accept sg w b).cnt = 0#4 := rfl

/-! `Control.complete` -/

@[simp] theorem Control.complete_busy (e : ErrCode) (c : Control) : (c.complete e).busy = false := rfl
@[simp] theorem Control.complete_done (e : ErrCode) (c : Control) : (c.complete e).done = true := rfl
@[simp] theorem Control.complete_ovr (e : ErrCode) (c : Control) : (c.complete e).ovr = c.ovr := rfl
@[simp] theorem Control.complete_err (e : ErrCode) (c : Control) : (c.complete e).err = e := rfl
@[simp] theorem Control.complete_signed (e : ErrCode) (c : Control) : (c.complete e).signed = c.signed := rfl
@[simp] theorem Control.complete_width (e : ErrCode) (c : Control) : (c.complete e).width = c.width := rfl
@[simp] theorem Control.complete_buffer (e : ErrCode) (c : Control) : (c.complete e).buffer = c.buffer := rfl
@[simp] theorem Control.complete_cnt (e : ErrCode) (c : Control) : (c.complete e).cnt = c.cnt := rfl

/-! `Control.count` -/

@[simp] theorem Control.count_busy (c : Control) : (c.count).busy = c.busy := rfl
@[simp] theorem Control.count_done (c : Control) : (c.count).done = c.done := rfl
@[simp] theorem Control.count_ovr (c : Control) : (c.count).ovr = c.ovr := rfl
@[simp] theorem Control.count_err (c : Control) : (c.count).err = c.err := rfl
@[simp] theorem Control.count_signed (c : Control) : (c.count).signed = c.signed := rfl
@[simp] theorem Control.count_width (c : Control) : (c.count).width = c.width := rfl
@[simp] theorem Control.count_buffer (c : Control) : (c.count).buffer = c.buffer := rfl
@[simp] theorem Control.count_cnt (c : Control) : (c.count).cnt = c.cnt + 1#4 := rfl

/-! `decoderInit` -/

@[simp] theorem decoderInit_ctl (sg : Bool) (w : Width) (b : Bool) (d : Decoder) : (decoderInit sg w b d).ctl = d.ctl.accept sg w b := rfl
@[simp] theorem decoderInit_acc (sg : Bool) (w : Width) (b : Bool) (d : Decoder) : (decoderInit sg w b d).acc = 0#64 := rfl
@[simp] theorem decoderInit_off (sg : Bool) (w : Width) (b : Bool) (d : Decoder) : (decoderInit sg w b d).off = 0#7 := rfl
@[simp] theorem decoderInit_ibuf (sg : Bool) (w : Width) (b : Bool) (d : Decoder) : (decoderInit sg w b d).ibuf = d.ibuf := rfl
@[simp] theorem decoderInit_ilen (sg : Bool) (w : Width) (b : Bool) (d : Decoder) : (decoderInit sg w b d).ilen = d.ilen := rfl
@[simp] theorem decoderInit_result (sg : Bool) (w : Width) (b : Bool) (d : Decoder) : (decoderInit sg w b d).result = d.result := rfl

/-! `countInput` -/

@[simp] theorem countInput_ctl (d : Decoder) : (countInput d).ctl = d.ctl.count := rfl
@[simp] theorem countInput_acc (d : Decoder) : (countInput d).acc = d.acc := rfl
@[simp] theorem countInput_off (d : Decoder) : (countInput d).off = d.off := rfl
@[simp] theorem countInput_ibuf (d : Decoder) : (countInput d).ibuf = d.ibuf := rfl
@[simp] theorem countInput_ilen (d : Decoder) : (countInput d).ilen = d.ilen := rfl
@[simp] theorem countInput_result (d : Decoder) : (countInput d).result = d.result := rfl

/-! `continueInput`, `finishInput` -/

@[simp] theorem continueInput_ctl (d : Decoder) (x : Byte) : (continueInput d x).ctl = d.ctl := rfl
@[simp] theorem continueInput_acc (d : Decoder) (x : Byte) : (continueInput d x).acc = accumulate d.ctl.width d.acc d.off x := rfl
@[simp] theorem continueInput_off (d : Decoder) (x : Byte) : (continueInput d x).off = d.off + 7#7 := rfl
@[simp] theorem continueInput_ibuf (d : Decoder) (x : Byte) : (continueInput d x).ibuf = d.ibuf := rfl
@[simp] theorem continueInput_ilen (d : Decoder) (x : Byte) : (continueInput d x).ilen = d.ilen := rfl
@[simp] theorem continueInput_result (d : Decoder) (x : Byte) : (continueInput d x).result = d.result := rfl
@[simp] theorem finishInput_ctl (d : Decoder) (x : Byte) : (finishInput d x).ctl = d.ctl.complete .none := rfl
@[simp] theorem finishInput_acc (d : Decoder) (x : Byte) : (finishInput d x).acc = d.acc := rfl
@[simp] theorem finishInput_off (d : Decoder) (x : Byte) : (finishInput d x).off = d.off := rfl
@[simp] theorem finishInput_ibuf (d : Decoder) (x : Byte) : (finishInput d x).ibuf = d.ibuf := rfl
@[simp] theorem finishInput_ilen (d : Decoder) (x : Byte) : (finishInput d x).ilen = d.ilen := rfl
@[simp] theorem finishInput_result (d : Decoder) (x : Byte) : (finishInput d x).result = 
    decodedResult d.ctl.signed d.ctl.width (accumulate d.ctl.width d.acc d.off x) := rfl

/-! `encoderInit` -/

@[simp] theorem encoderInit_ctl (sg : Bool) (w : Width) (b : Bool) (s : State) :
    (encoderInit sg w b s).ctl = s.enc.ctl.accept sg w b := rfl
@[simp] theorem encoderInit_work (sg : Bool) (w : Width) (b : Bool) (s : State) :
    (encoderInit sg w b s).work = encoderOperand sg w s.encVal := rfl
@[simp] theorem encoderInit_obuf (sg : Bool) (w : Width) (b : Bool) (s : State) :
    (encoderInit sg w b s).obuf = if b then [] else s.enc.obuf := rfl

/-! `raiseError` -/

@[simp] theorem raiseError_enc (e : ErrCode) (s : State) : (raiseError e s).enc = s.enc := rfl
@[simp] theorem raiseError_dec (e : ErrCode) (s : State) : (raiseError e s).dec = { s.dec with ctl := s.dec.ctl.complete e } := rfl
@[simp] theorem raiseError_encVal (e : ErrCode) (s : State) : (raiseError e s).encVal = s.encVal := rfl
@[simp] theorem raiseError_sink (e : ErrCode) (s : State) : (raiseError e s).sink = s.sink := rfl
@[simp] theorem raiseError_source (e : ErrCode) (s : State) : (raiseError e s).source = s.source := rfl
@[simp] theorem raiseError_sourcePos (e : ErrCode) (s : State) : (raiseError e s).sourcePos = s.sourcePos := rfl
@[simp] theorem raiseError_reads (e : ErrCode) (s : State) : (raiseError e s).reads = s.reads := rfl
@[simp] theorem raiseError_agenda (e : ErrCode) (s : State) : (raiseError e s).agenda = s.agenda := rfl
@[simp] theorem raiseError_turn (e : ErrCode) (s : State) : (raiseError e s).turn = s.turn := rfl

/-! `resetBlock` -/

@[simp] theorem resetBlock_enc (s : State) : (resetBlock s).enc = Encoder.reset := rfl
@[simp] theorem resetBlock_dec (s : State) : (resetBlock s).dec = Decoder.reset := rfl
@[simp] theorem resetBlock_encVal (s : State) : (resetBlock s).encVal = 0#64 := rfl
@[simp] theorem resetBlock_sink (s : State) : (resetBlock s).sink = s.sink := rfl
@[simp] theorem resetBlock_source (s : State) : (resetBlock s).source = s.source := rfl
@[simp] theorem resetBlock_sourcePos (s : State) : (resetBlock s).sourcePos = s.sourcePos := rfl
@[simp] theorem resetBlock_reads (s : State) : (resetBlock s).reads = s.reads := rfl
@[simp] theorem resetBlock_agenda (s : State) : (resetBlock s).agenda = s.agenda := rfl
@[simp] theorem resetBlock_turn (s : State) : (resetBlock s).turn = s.turn := rfl

/-! `hostReadStep` -/

@[simp] theorem hostReadStep_enc (n : RegNo) (s : State) : (hostReadStep n s).enc = s.enc := rfl
@[simp] theorem hostReadStep_dec (n : RegNo) (s : State) : (hostReadStep n s).dec = s.dec := rfl
@[simp] theorem hostReadStep_encVal (n : RegNo) (s : State) : (hostReadStep n s).encVal = s.encVal := rfl
@[simp] theorem hostReadStep_sink (n : RegNo) (s : State) : (hostReadStep n s).sink = s.sink := rfl
@[simp] theorem hostReadStep_source (n : RegNo) (s : State) : (hostReadStep n s).source = s.source := rfl
@[simp] theorem hostReadStep_sourcePos (n : RegNo) (s : State) : (hostReadStep n s).sourcePos = s.sourcePos := rfl
@[simp] theorem hostReadStep_reads (n : RegNo) (s : State) : (hostReadStep n s).reads = s.reads ++ [readReg n s] := rfl
@[simp] theorem hostReadStep_agenda (n : RegNo) (s : State) : (hostReadStep n s).agenda = s.agenda := rfl
@[simp] theorem hostReadStep_turn (n : RegNo) (s : State) : (hostReadStep n s).turn = s.turn := rfl

/-! `placeCommand` -/

@[simp] theorem placeCommand_enc (v : Word) (s : State) : (placeCommand v s).enc = s.enc := rfl
@[simp] theorem placeCommand_dec (v : Word) (s : State) : (placeCommand v s).dec = s.dec := rfl
@[simp] theorem placeCommand_encVal (v : Word) (s : State) : (placeCommand v s).encVal = s.encVal := rfl
@[simp] theorem placeCommand_sink (v : Word) (s : State) : (placeCommand v s).sink = s.sink := rfl
@[simp] theorem placeCommand_source (v : Word) (s : State) : (placeCommand v s).source = s.source := rfl
@[simp] theorem placeCommand_sourcePos (v : Word) (s : State) : (placeCommand v s).sourcePos = s.sourcePos := rfl
@[simp] theorem placeCommand_reads (v : Word) (s : State) : (placeCommand v s).reads = s.reads := rfl
@[simp] theorem placeCommand_agenda (v : Word) (s : State) : (placeCommand v s).agenda = .hostWrite 0x00#5 v :: s.agenda := rfl
@[simp] theorem placeCommand_turn (v : Word) (s : State) : (placeCommand v s).turn = s.turn := rfl

end Sys2Proof.Machine
end

