-- ==== Sys2Proof/Laws/Ops.lean ====
section
/-! SUPPORT. What each shared operation can do, said once: the two ways a command is issued, emit, SourceRead, the units'
turns, host writes, and sequences of agent steps. -/

namespace Sys2Proof.Machine

/-- Every VENC arm is the one issue operation at its own fields. -/
theorem exec_enc (i : Instr) (s : State) (h : i.unit = .enc) :
    exec i s = issueEncoder i.signed i.width i.buffer s := by
  cases i <;> first | rfl | exact absurd h (by decide)

/-- Every VDEC arm is the one issue operation at its own fields. -/
theorem exec_dec (i : Instr) (s : State) (h : i.unit = .dec) :
    exec i s = issueDecoder i.signed i.width i.buffer s := by
  cases i <;> first | rfl | exact absurd h (by decide)

theorem issueEncoder_next {sg b : Bool} {w : Width} {s t : State} (h : issueEncoder sg w b s = .next t) :
    (s.enc.ctl.busy = true ∧ t = { s with enc := { s.enc with ctl := s.enc.ctl.drop } }) ∨
    (s.enc.ctl.busy = false ∧ t = { s with enc := encoderInit sg w b s }) := by
  unfold issueEncoder at h
  split at h
  · next hb => exact .inl ⟨hb, (Host.Outcome.next.inj h).symm⟩
  · next hb => exact .inr ⟨by simpa using hb, (Host.Outcome.next.inj h).symm⟩

theorem issueDecoder_next {sg b : Bool} {w : Width} {s t : State} (h : issueDecoder sg w b s = .next t) :
    (s.dec.ctl.busy = true ∧ t = { s with dec := { s.dec with ctl := s.dec.ctl.drop } }) ∨
    (s.dec.ctl.busy = false ∧ t = { s with dec := decoderInit sg w b s.dec }) := by
  unfold issueDecoder at h
  split at h
  · next hb => exact .inl ⟨hb, (Host.Outcome.next.inj h).symm⟩
  · next hb => exact .inr ⟨by simpa using hb, (Host.Outcome.next.inj h).symm⟩

/-- A command always has a next state. -/
theorem exec_total (i : Instr) (s : State) : ∃ t, exec i s = .next t := by
  cases hu : i.unit
  · rw [exec_enc i s hu, issueEncoder]
    split <;> exact ⟨_, rfl⟩
  · rw [exec_dec i s hu, issueDecoder]
    split <;> exact ⟨_, rfl⟩

/-- A CMD write always has a next state. -/
theorem cmdWrite_total (v : Word) (s : State) : ∃ t, cmdWrite v s = .next t := by
  unfold cmdWrite
  split
  · exact exec_total _ s
  · exact ⟨_, rfl⟩

/-- One byte emitted: at the end of the sink, or in OBUF at index `enc.cnt`. -/
theorem emitByte_cases (b : Byte) (s : State) :
    (s.enc.ctl.buffer = false ∧ emitByte b s = { s with sink := s.sink ++ [b] }) ∨
    (s.enc.ctl.buffer = true ∧
      emitByte b s = { s with enc := { s.enc with obuf := writeByte s.enc.obuf s.enc.ctl.cnt.toNat b } }) := by
  unfold emitByte
  cases s.enc.ctl.buffer
  · exact .inl ⟨rfl, rfl⟩
  · exact .inr ⟨rfl, rfl⟩

/-- Everything a turn of the encoder can do: nothing, a byte to the sink, or a byte to OBUF. -/
theorem encoderTurn_next {a : Bool} {s t : State} (h : encoderTurn a s = .next t) :
    ((s.enc.ctl.busy = false ∨ (s.enc.ctl.buffer = false ∧ a = false)) ∧ t = s) ∨
    (s.enc.ctl.busy = true ∧ s.enc.ctl.buffer = false ∧ a = true ∧
      t = { s with sink := s.sink ++ [outByte s.enc.work], enc := encoderAdvance s.enc }) ∨
    (s.enc.ctl.busy = true ∧ s.enc.ctl.buffer = true ∧
      t = { s with enc := encoderAdvance ({ s.enc with
        obuf := writeByte s.enc.obuf s.enc.ctl.cnt.toNat (outByte s.enc.work) }) }) := by
  cases hb : s.enc.ctl.busy <;> cases hm : s.enc.ctl.buffer <;> cases a <;>
    simp_all [encoderTurn, encoderByte, emitByte, Host.Outcome.next.injEq]

/-- A turn of the encoder always has a next state. -/
theorem encoderTurn_total (a : Bool) (s : State) : ∃ t, encoderTurn a s = .next t := by
  unfold encoderTurn
  split <;> exact ⟨_, rfl⟩

/-- SourceRead takes one response: the next one listed, or a free one after the last. -/
theorem sourceRead_cases (s : State) :
    (∃ r rest, s.source = r :: rest ∧ sourceRead s = (r, { s with source := rest })) ∨
    (s.source = [] ∧ sourceRead s = (Config.freeResponse s.sourcePos, { s with sourcePos := s.sourcePos + 1 })) := by
  unfold sourceRead
  cases hs : s.source with
  | nil => exact .inr ⟨rfl, rfl⟩
  | cons r rest => exact .inl ⟨r, rest, rfl, rfl⟩

/-- A turn of the decoder always has a next state. -/
theorem decoderTurn_total (a : Bool) (s : State) : ∃ t, decoderTurn a s = .next t := by
  unfold decoderTurn
  split
  · split
    · exact ⟨_, rfl⟩
    · split <;> exact ⟨_, rfl⟩
  · exact ⟨_, rfl⟩

/-- Everything a turn of the decoder can do: nothing, a step on the source's answer, or a step on IBUF. -/
theorem decoderTurn_next {a : Bool} {s t : State} (h : decoderTurn a s = .next t) :
    ((s.dec.ctl.busy = false ∨ (s.dec.ctl.buffer = false ∧ a = false)) ∧ t = s) ∨
    (s.dec.ctl.busy = true ∧ s.dec.ctl.buffer = false ∧ a = true ∧ t = decoderStream s) ∨
    (s.dec.ctl.busy = true ∧ s.dec.ctl.buffer = true ∧ t = decoderBuffer s) := by
  unfold decoderTurn at h
  cases hb : s.dec.ctl.busy <;> cases hm : s.dec.ctl.buffer <;> cases a <;>
    simp_all [Host.Outcome.next.injEq]

/-- Consuming a byte changes the decoder only. -/
theorem consumeByte_frame (x : Byte) (last : Bool) (s : State) :
    consumeByte x last s = { s with dec := (consumeByte x last s).dec } := by
  simp only [consumeByte]
  split
  · rfl
  · split <;> rfl

/-- The three things one input byte can do, in the order of 41_decoder R145 to R147. -/
theorem consumeByte_cases (x : Byte) (last : Bool) (s : State) :
    (contBit x = true ∧ s.dec.ctl.count.cnt.toNat = maxBytes s.dec.ctl.width ∧
      (consumeByte x last s).dec = { s.dec with ctl := s.dec.ctl.count.complete .malformedVarint }) ∨
    (contBit x = true ∧ s.dec.ctl.count.cnt.toNat ≠ maxBytes s.dec.ctl.width ∧ last = false ∧
      (consumeByte x last s).dec = continueInput (countInput s.dec) x) ∨
    ((contBit x = false ∨ (s.dec.ctl.count.cnt.toNat ≠ maxBytes s.dec.ctl.width ∧ last = true)) ∧
      (consumeByte x last s).dec = finishInput (countInput s.dec) x) := by
  by_cases h1 : contBit x = true
  · by_cases h2 : (countInput s.dec).ctl.cnt.toNat = maxBytes (countInput s.dec).ctl.width
    · refine .inl ⟨h1, h2, ?_⟩
      simp only [consumeByte, h1, h2, decide_true, Bool.and_true, if_true]
      rfl
    · cases last
      · refine .inr (.inl ⟨h1, h2, rfl, ?_⟩)
        simp only [consumeByte, h1, h2, decide_false, Bool.and_false, Bool.not_false, Bool.and_true, if_true]
        rfl
      · refine .inr (.inr ⟨.inr ⟨h2, rfl⟩, ?_⟩)
        simp only [consumeByte, h1, h2, decide_false, Bool.and_false, Bool.not_true]
        rfl
  · have h1' : contBit x = false := by simpa using h1
    refine .inr (.inr ⟨.inl h1', ?_⟩)
    simp only [consumeByte, h1', Bool.false_and]
    rfl

/-- A decoder-input write is the hazard fault exactly while the decoder is busy. -/
theorem writeDecoderInput_next {d : Decoder} {s t : State} (h : writeDecoderInput d s = .next t) :
    s.dec.ctl.busy = false ∧ t = { s with dec := d } := by
  unfold writeDecoderInput at h
  split at h
  · exact absurd h (by simp)
  · next hb => exact ⟨by simpa using hb, (Host.Outcome.next.inj h).symm⟩

@[simp] theorem runEvents_nil (s : State) : runEvents [] s = .next s := rfl

/-- A sequence goes on from each step's next state. -/
theorem runEvents_cons_next {e : Event} {es : List Event} {s t : State} :
    runEvents (e :: es) s = .next t ↔ ∃ u, runEvent e s = .next u ∧ runEvents es u = .next t := by
  rw [runEvents]
  cases hu : runEvent e s with
  | next u => simp
  | fault f => simp
  | refused r => simp

/-- Two sequences one after the other. -/
theorem runEvents_append_next {es fs : List Event} {s t : State} :
    runEvents (es ++ fs) s = .next t ↔ ∃ u, runEvents es s = .next u ∧ runEvents fs u = .next t := by
  induction es generalizing s with
  | nil => simp
  | cons e es ih =>
    rw [List.cons_append, runEvents_cons_next]
    constructor
    · rintro ⟨u, hu, h⟩
      obtain ⟨v, hv, hw⟩ := ih.1 h
      exact ⟨v, runEvents_cons_next.2 ⟨u, hu, hv⟩, hw⟩
    · rintro ⟨v, hv, hw⟩
      obtain ⟨u, hu, h⟩ := runEvents_cons_next.1 hv
      exact ⟨u, hu, ih.2 ⟨v, h, hw⟩⟩

/-- A property every agent step of a kind keeps holds after every sequence of that kind. -/
theorem runEvents_keeps {P : State → Prop} {q : Event → Prop}
    (hstep : ∀ e s t, q e → P s → runEvent e s = .next t → P t) :
    ∀ (es : List Event) {s t : State}, (∀ e ∈ es, q e) → P s → runEvents es s = .next t → P t
  | [], _, _, _, hp, h => by
    rw [runEvents_nil] at h
    exact Host.Outcome.next.inj h ▸ hp
  | e :: es, _, _, hq, hp, h => by
    obtain ⟨u, hu, h'⟩ := runEvents_cons_next.1 h
    exact runEvents_keeps hstep es (fun x hx => hq x (List.mem_cons_of_mem _ hx))
      (hstep e _ u (hq e (List.mem_cons_self ..)) hp hu) h'

/-- A host write to CMD is the CMD write. -/
theorem runEvent_hostWrite_cmd (v : Word) (s : State) : runEvent (.hostWrite 0x00#5 v) s = cmdWrite v s := rfl

/-- ISSUE of a command is `exec` of it, given that its word decodes to it. -/
theorem runEvent_issue (i : Instr) (s : State) : runEvent (issue i) s = exec i s := by
  cases i <;> rfl

end Sys2Proof.Machine
end

