-- ==== Sys2Proof/Laws/PerInstr.lean ====
section
/-! SUPPORT. What holds of every command as syntax, one lemma per command: its word is well formed and carries its fields
S, W, B, D in bits 0 to 3 (30_encoding R85). -/

/-- The command word of `i` has its reserved bits 0 and its fields in their places. -/
def Sys2Proof.Laws.WordFields.Statement (i : Sys2Proof.Instr) : Prop :=
  Sys2Proof.wordWf (Sys2Proof.encode i) = true
  ∧ (Sys2Proof.encode i).getLsbD 0 = i.signed
  ∧ (Sys2Proof.encode i).getLsbD 1 = (i.width == .w64)
  ∧ (Sys2Proof.encode i).getLsbD 2 = i.buffer
  ∧ (Sys2Proof.encode i).getLsbD 3 = (i.unit == .dec)

theorem Sys2Proof.Laws.WordFields.vencU32 : Sys2Proof.Laws.WordFields.Statement .vencU32 := by
  unfold Sys2Proof.Laws.WordFields.Statement; decide

theorem Sys2Proof.Laws.WordFields.vencS32 : Sys2Proof.Laws.WordFields.Statement .vencS32 := by
  unfold Sys2Proof.Laws.WordFields.Statement; decide

theorem Sys2Proof.Laws.WordFields.vencU64 : Sys2Proof.Laws.WordFields.Statement .vencU64 := by
  unfold Sys2Proof.Laws.WordFields.Statement; decide

theorem Sys2Proof.Laws.WordFields.vencS64 : Sys2Proof.Laws.WordFields.Statement .vencS64 := by
  unfold Sys2Proof.Laws.WordFields.Statement; decide

theorem Sys2Proof.Laws.WordFields.vencU32Buf : Sys2Proof.Laws.WordFields.Statement .vencU32Buf := by
  unfold Sys2Proof.Laws.WordFields.Statement; decide

theorem Sys2Proof.Laws.WordFields.vencS32Buf : Sys2Proof.Laws.WordFields.Statement .vencS32Buf := by
  unfold Sys2Proof.Laws.WordFields.Statement; decide

theorem Sys2Proof.Laws.WordFields.vencU64Buf : Sys2Proof.Laws.WordFields.Statement .vencU64Buf := by
  unfold Sys2Proof.Laws.WordFields.Statement; decide

theorem Sys2Proof.Laws.WordFields.vencS64Buf : Sys2Proof.Laws.WordFields.Statement .vencS64Buf := by
  unfold Sys2Proof.Laws.WordFields.Statement; decide

theorem Sys2Proof.Laws.WordFields.vdecU32 : Sys2Proof.Laws.WordFields.Statement .vdecU32 := by
  unfold Sys2Proof.Laws.WordFields.Statement; decide

theorem Sys2Proof.Laws.WordFields.vdecS32 : Sys2Proof.Laws.WordFields.Statement .vdecS32 := by
  unfold Sys2Proof.Laws.WordFields.Statement; decide

theorem Sys2Proof.Laws.WordFields.vdecU64 : Sys2Proof.Laws.WordFields.Statement .vdecU64 := by
  unfold Sys2Proof.Laws.WordFields.Statement; decide

theorem Sys2Proof.Laws.WordFields.vdecS64 : Sys2Proof.Laws.WordFields.Statement .vdecS64 := by
  unfold Sys2Proof.Laws.WordFields.Statement; decide

theorem Sys2Proof.Laws.WordFields.vdecU32Buf : Sys2Proof.Laws.WordFields.Statement .vdecU32Buf := by
  unfold Sys2Proof.Laws.WordFields.Statement; decide

theorem Sys2Proof.Laws.WordFields.vdecS32Buf : Sys2Proof.Laws.WordFields.Statement .vdecS32Buf := by
  unfold Sys2Proof.Laws.WordFields.Statement; decide

theorem Sys2Proof.Laws.WordFields.vdecU64Buf : Sys2Proof.Laws.WordFields.Statement .vdecU64Buf := by
  unfold Sys2Proof.Laws.WordFields.Statement; decide

theorem Sys2Proof.Laws.WordFields.vdecS64Buf : Sys2Proof.Laws.WordFields.Statement .vdecS64Buf := by
  unfold Sys2Proof.Laws.WordFields.Statement; decide
end

