-- ==== Sys2Proof/Tests/Slice0.lean ====
section
/-! SUPPORT. The model's own tests (expected values from spec/95_test_vectors.md and the corner cases of the command rules, named
at each test), the WellFormed smoke tests, and a witness for the hypotheses of every statement of
Sys2Proof/Certificates/Slice0/Obligations.lean. -/

namespace Sys2Proof.Tests

open Sys2Proof Sys2Proof.Machine

/-! ### Small states -/

/-- The next state, if there is one. -/
def nextOf (o : Host.Outcome State Fault Refusal) : Option State :=
  match o with
  | .next t => some t
  | .fault _ => none
  | .refused _ => none

/-- The fault, if there is one. -/
def faultOf (o : Host.Outcome State Fault Refusal) : Option Fault :=
  match o with
  | .next _ => none
  | .fault f => some f
  | .refused _ => none

/-- The refusal, if there is one. -/
def refusalOf (o : Host.Outcome State Fault Refusal) : Option Refusal :=
  match o with
  | .next _ => none
  | .fault _ => none
  | .refused r => some r

/-- Reset, with ENC_VAL = `x`. -/
def withVal (x : Word) : State := { State.reset with encVal := x }

/-- A busy encoder holding `work`, `cnt` bytes emitted. -/
def encBusy (buffer : Bool) (width : Width) (work : Word) (cnt : Count) : State :=
  { State.reset with enc := { Encoder.reset with
      ctl := { Control.reset with busy := true, buffer := buffer, width := width, cnt := cnt }, work := work } }

/-- A busy stream-mode decoder before its first byte, the source about to give `src`. -/
def decStream (signed : Bool) (width : Width) (src : List Response) : State :=
  { State.reset with
    source := src
    dec := { Decoder.reset with
      result := 0x55#64, ctl := { Control.reset with busy := true, signed := signed, width := width } } }

/-- A busy buffer-mode decoder before its first byte, IBUF = `m`, DEC_ILEN = `ilen`. -/
def decBuffer (signed : Bool) (width : Width) (m : Mem) (ilen : BitVec 4) : State :=
  { State.reset with dec := { Decoder.reset with
      ibuf := m, ilen := ilen, result := 0x55#64
      ctl := { Control.reset with busy := true, signed := signed, width := width, buffer := true } } }

/-- A busy decoder at its last possible byte at W = 32: four bytes consumed. -/
def decFifth (buffer : Bool) (b : Byte) : State :=
  { State.reset with
    source := [.byte b, .eoi]
    dec := { Decoder.reset with
      acc := 0xFFFFFFF#64, off := 28#7, ibuf := [(4, b)], ilen := 5#4, result := 0x55#64
      ctl := { Control.reset with busy := true, width := .w32, buffer := buffer, cnt := 4#4 } } }

/-- What a unit's turn leaves in DEC_STATUS, DEC_LEN and DEC_RESULT. -/
def decReport (o : Host.Outcome State Fault Refusal) : Option (Word × Word × Word) :=
  (nextOf o).map fun t => (readReg 0x0B#5 t, readReg 0x0C#5 t, readReg 0x0D#5 t)

/-! ### Well-formedness smoke tests -/

/-- 30_encoding R85: a reserved bit set. -/
theorem test_wordWf_refuses_bit4 : wordWf 0x10#64 = false := by decide

theorem test_wordWf_refuses_bit63 : wordWf 0x8000000000000002#64 = false := by decide

theorem test_wordWf_accepts : wordWf 0xF#64 = true := by decide

theorem test_memWf_refuses_disorder : memWf [(3, 1#8), (2, 1#8)] = false := by decide

theorem test_memWf_refuses_repeat : memWf [(2, 1#8), (2, 1#8)] = false := by decide

theorem test_memWf_refuses_zero_cell : memWf [(2, 0#8)] = false := by decide

theorem test_memWf_refuses_index_ten : memWf [(10, 1#8)] = false := by decide

theorem test_memWf_accepts : memWf [(0, 1#8), (9, 0xFF#8)] = true := by decide

/-! ### Decoding, each word written out from 30_encoding R85 and R87 -/

/-- D = 0, B = 0, W = 0, S = 0. -/
theorem test_decode_vencU32 : decode 0b0000#64 = .legal .vencU32 := by decide

/-- D = 0, B = 0, W = 0, S = 1. -/
theorem test_decode_vencS32 : decode 0b0001#64 = .legal .vencS32 := by decide

/-- D = 0, B = 0, W = 1, S = 0. -/
theorem test_decode_vencU64 : decode 0b0010#64 = .legal .vencU64 := by decide

/-- D = 0, B = 0, W = 1, S = 1. -/
theorem test_decode_vencS64 : decode 0b0011#64 = .legal .vencS64 := by decide

/-- D = 0, B = 1, W = 0, S = 0. -/
theorem test_decode_vencU32Buf : decode 0b0100#64 = .legal .vencU32Buf := by decide

/-- D = 0, B = 1, W = 0, S = 1. -/
theorem test_decode_vencS32Buf : decode 0b0101#64 = .legal .vencS32Buf := by decide

/-- D = 0, B = 1, W = 1, S = 0. -/
theorem test_decode_vencU64Buf : decode 0b0110#64 = .legal .vencU64Buf := by decide

/-- D = 0, B = 1, W = 1, S = 1. -/
theorem test_decode_vencS64Buf : decode 0b0111#64 = .legal .vencS64Buf := by decide

/-- D = 1, B = 0, W = 0, S = 0. -/
theorem test_decode_vdecU32 : decode 0b1000#64 = .legal .vdecU32 := by decide

/-- D = 1, B = 0, W = 0, S = 1. -/
theorem test_decode_vdecS32 : decode 0b1001#64 = .legal .vdecS32 := by decide

/-- D = 1, B = 0, W = 1, S = 0. -/
theorem test_decode_vdecU64 : decode 0b1010#64 = .legal .vdecU64 := by decide

/-- D = 1, B = 0, W = 1, S = 1. -/
theorem test_decode_vdecS64 : decode 0b1011#64 = .legal .vdecS64 := by decide

/-- D = 1, B = 1, W = 0, S = 0. -/
theorem test_decode_vdecU32Buf : decode 0b1100#64 = .legal .vdecU32Buf := by decide

/-- D = 1, B = 1, W = 0, S = 1. -/
theorem test_decode_vdecS32Buf : decode 0b1101#64 = .legal .vdecS32Buf := by decide

/-- D = 1, B = 1, W = 1, S = 0. -/
theorem test_decode_vdecU64Buf : decode 0b1110#64 = .legal .vdecU64Buf := by decide

/-- D = 1, B = 1, W = 1, S = 1. -/
theorem test_decode_vdecS64Buf : decode 0b1111#64 = .legal .vdecS64Buf := by decide

/-- V-1: D = 0 and bit 4 set. -/
theorem test_decode_illegal_enc : decode 0x10#64 = .illegalCmd .enc := by decide

/-- V-2: D = 1 and bit 4 set. -/
theorem test_decode_illegal_dec : decode 0x18#64 = .illegalCmd .dec := by decide

/-- V-3. -/
theorem test_decode_illegal_top : decode 0x8000000000000002#64 = .illegalCmd .enc := by decide

theorem test_decodeTableWord : decodeTableWord 64 0xE = some .vdecU64Buf := by decide

theorem test_decodeTableWord_refuses : decodeTableWord 64 0x1C = none := by decide

/-- The step after `withFetchWord` runs the command placed, as the first one after reset. -/
theorem test_step_runs_placed_command :
    (nextOf (step (State.reset.withFetchWord 64 0x7))).map
      (fun t => (t.enc.ctl.busy, t.enc.ctl.signed, t.enc.ctl.width, t.enc.ctl.buffer, t.agenda))
      = some (true, true, .w64, true, []) := by decide

/-! ### The VENC commands: what acceptance latches, and one step -/

/-- R110: ENC_VAL[63:32] is ignored. -/
theorem test_vencU32_operand : (nextOf (exec .vencU32 (withVal 0xFFFFFFFF00000001#64))).map (·.enc.work) = some 0x1#64 := by
  decide

/-- R111: n = -2^31 has zig-zag 2^32 - 1. -/
theorem test_vencS32_operand : (nextOf (exec .vencS32 (withVal 0x80000000#64))).map (·.enc.work) = some 0xFFFFFFFF#64 := by
  decide

/-- R112. -/
theorem test_vencU64_operand :
    (nextOf (exec .vencU64 (withVal 0xFFFFFFFF00000001#64))).map (·.enc.work) = some 0xFFFFFFFF00000001#64 := by decide

/-- Section 2.4b, the cross-width corner case: VENC.S64 reads 0x80000000 as +2^31. -/
theorem test_vencS64_operand : (nextOf (exec .vencS64 (withVal 0x80000000#64))).map (·.enc.work) = some 0x100000000#64 := by
  decide

/-- R105, R114: a buffer-mode command clears OBUF; a stream-mode command leaves it. -/
theorem test_vencU32Buf_clears :
    (nextOf (exec .vencU32Buf { State.reset with enc := { Encoder.reset with obuf := [(0, 0xFF#8)] } })).map (·.enc.obuf)
      = some [] := by decide

theorem test_vencU32_keeps_obuf :
    (nextOf (exec .vencU32 { State.reset with enc := { Encoder.reset with obuf := [(0, 0xFF#8)] } })).map (·.enc.obuf)
      = some [(0, 0xFF#8)] := by decide

/-- R115: ENC_VAL = 64 has zig-zag 128. -/
theorem test_vencS32Buf_operand : (nextOf (exec .vencS32Buf (withVal 64#64))).map (·.enc.work) = some 128#64 := by decide

/-- P1 line 2: ENC_STATUS = 0x01. -/
theorem test_vencU64Buf_status :
    (nextOf (exec .vencU64Buf (withVal 0x12C#64))).map (fun t => (readReg 0x02#5 t, t.enc.work)) = some (0x01#64, 0x12C#64) := by
  decide

/-- P2 line 2: n = -2^63. -/
theorem test_vencS64Buf_operand :
    (nextOf (exec .vencS64Buf (withVal 0x8000000000000000#64))).map (·.enc.work) = some 0xFFFFFFFFFFFFFFFF#64 := by decide

/-- V-5: a command to a busy encoder: ENC_STATUS = 0x11. -/
theorem test_venc_busy_dropped :
    (nextOf (exec .vencU32 (encBusy false .w64 0x8000000000000000#64 0#4))).map
      (fun t => (readReg 0x02#5 t, t.enc.work)) = some (0x11#64, 0x8000000000000000#64) := by decide

/-- R110, ENC_VAL = 300: the first byte is 0xAC and the value left is 2. -/
theorem test_encoder_first_byte :
    (nextOf (runEvent (.encoder true) (encBusy false .w32 300#64 0#4))).map (fun t => (t.sink, t.enc.work, readReg 0x02#5 t))
      = some ([0xAC#8], 2#64, 0x01#64) := by decide

/-- R110, ENC_VAL = 300: the second byte is 0x02, and ENC_STATUS = 0x02, ENC_LEN = 2. -/
theorem test_encoder_last_byte :
    (nextOf (runEvent (.encoder true) (encBusy false .w32 2#64 1#4))).map
      (fun t => (t.sink, readReg 0x02#5 t, readReg 0x03#5 t)) = some ([0x02#8], 0x02#64, 2#64) := by decide

/-- R112, R103: the top bit alone is shifted logically. -/
theorem test_encoder_logical_shift :
    (nextOf (runEvent (.encoder true) (encBusy false .w64 0x8000000000000000#64 0#4))).map (fun t => (t.sink, t.enc.work))
      = some ([0x80#8], 0x100000000000000#64) := by decide

/-- R107: a buffer-mode step needs no sink; section 2.4a, the tenth byte of 2^64 - 1 goes to ENC_OBUF_HI[15:8]. -/
theorem test_encoder_tenth_byte :
    (nextOf (runEvent (.encoder false) (encBusy true .w64 1#64 9#4))).map
      (fun t => (readReg 0x05#5 t, readReg 0x03#5 t, t.sink)) = some (0x0100#64, 10#64, []) := by decide

/-! ### The VDEC commands: what acceptance leaves, and one step on one byte -/

/-- R142: nothing is read and DEC_RESULT stays; DEC_STATUS = 0x01. -/
theorem test_vdecU32_accepts :
    decReport (exec .vdecU32 { decStream true .w64 [] with
      dec := { (decStream true .w64 []).dec with ctl := { Control.reset with done := true, err := .endOfInput, cnt := 3#4 } } })
      = some (0x01#64, 0x0#64, 0x55#64) := by decide

/-- P4's rule for the decoder: a command to a busy decoder sets OVR alone. -/
theorem test_vdec_busy_dropped : decReport (exec .vdecS32Buf (decStream false .w32 [])) = some (0x11#64, 0#64, 0x55#64) := by
  decide

/-- R160: [0x7F] gives 0x7F. -/
theorem test_vdecU32_byte : decReport (runEvent (.decoder true) (decStream false .w32 [.byte 0x7F#8, .eoi]))
    = some (0x02#64, 1#64, 0x7F#64) := by decide

/-- R161: [0x03] gives -2, sign-extended. -/
theorem test_vdecS32_byte : decReport (runEvent (.decoder true) (decStream true .w32 [.byte 0x03#8]))
    = some (0x02#64, 1#64, 0xFFFFFFFFFFFFFFFE#64) := by decide

/-- R162: one byte with C = 1 keeps the decoder busy. -/
theorem test_vdecU64_byte : decReport (runEvent (.decoder true) (decStream false .w64 [.byte 0xFF#8, .byte 0x01#8]))
    = some (0x01#64, 1#64, 0x55#64) := by decide

/-- R163: [0x01] gives -1 (section 2.5). -/
theorem test_vdecS64_byte : decReport (runEvent (.decoder true) (decStream true .w64 [.byte 0x01#8]))
    = some (0x02#64, 1#64, 0xFFFFFFFFFFFFFFFF#64) := by decide

/-- R164: [0xFF] with DEC_ILEN = 1 gives 0x7F, bit 7 not included. -/
theorem test_vdecU32Buf_byte : decReport (runEvent (.decoder false) (decBuffer false .w32 [(0, 0xFF#8)] 1#4))
    = some (0x02#64, 1#64, 0x7F#64) := by decide

/-- R165: [0x7F] with DEC_ILEN = 1 gives -64. -/
theorem test_vdecS32Buf_byte : decReport (runEvent (.decoder false) (decBuffer true .w32 [(0, 0x7F#8)] 1#4))
    = some (0x02#64, 1#64, 0xFFFFFFFFFFFFFFC0#64) := by decide

/-- R166 and section 2.6: an empty buffer is END_OF_INPUT with DEC_LEN = 0 and DEC_RESULT unchanged. -/
theorem test_vdecU64Buf_empty : decReport (runEvent (.decoder true) (decBuffer false .w64 [] 0#4))
    = some (0x0A#64, 0#64, 0x55#64) := by decide

/-- R167: [0x01] with DEC_ILEN = 1 gives -1. -/
theorem test_vdecS64Buf_byte : decReport (runEvent (.decoder false) (decBuffer true .w64 [(0, 0x01#8)] 1#4))
    = some (0x02#64, 1#64, 0xFFFFFFFFFFFFFFFF#64) := by decide

/-- R160: EOI at once is END_OF_INPUT with DEC_LEN = 0. -/
theorem test_decoder_eoi : decReport (runEvent (.decoder true) (decStream false .w32 [.eoi])) = some (0x0A#64, 0#64, 0x55#64) := by
  decide

/-- R151 (c): [0xFF x 4, 0x7F] at W = 32 gives 0xFFFFFFFF. -/
theorem test_decoder_drops_high_bits : decReport (runEvent (.decoder true) (decFifth false 0x7F#8))
    = some (0x02#64, 5#64, 0xFFFFFFFF#64) := by decide

/-- R150: a fifth byte with C = 1 is MALFORMED_VARINT though it is the buffer's last. -/
theorem test_decoder_bound_before_last_byte : decReport (runEvent (.decoder false) (decFifth true 0x80#8))
    = some (0x06#64, 5#64, 0x55#64) := by decide

/-! ### zig-zag (sections 2.1 to 2.3) -/

theorem test_zigzag_min32 : zigzag 0x80000000#32 = 0xFFFFFFFF#32 := by decide

theorem test_zigzag_minus150 : zigzag 0xFFFFFFFFFFFFFF6A#64 = 0x12B#64 := by decide

/-- Section 2.3: the case the other readings of the formula get wrong. -/
theorem test_unzigzag_top_bit : unzigzag 0xFFFFFFFE#32 = 0x7FFFFFFF#32 := by decide

theorem test_unzigzag_odd : unzigzag 0x3#64 = 0xFFFFFFFFFFFFFFFE#64 := by decide

/-! ### The host port (section 2.7) -/

/-- V-1. -/
theorem test_illegal_enc : (nextOf (runEvent (.hostWrite 0x00#5 0x10#64) State.reset)).map
    (fun t => (readReg 0x02#5 t, readReg 0x03#5 t, readReg 0x0B#5 t, t.sink)) = some (0x0E#64, 0#64, 0#64, []) := by decide

/-- V-6: the busy check comes first. -/
theorem test_illegal_busy : (nextOf (runEvent (.hostWrite 0x00#5 0x10#64) (encBusy false .w64 1#64 0#4))).map
    (fun t => readReg 0x02#5 t) = some 0x11#64 := by decide

/-- V-7. -/
theorem test_clear_ovr : (nextOf (runEvent (.hostWrite 0x02#5 0x10#64)
    { State.reset with enc := { Encoder.reset with ctl := { Control.reset with done := true, ovr := true } } })).map
    (fun t => readReg 0x02#5 t) = some 0x02#64 := by decide

/-- V-8. -/
theorem test_status_write_low_bits : (nextOf (runEvent (.hostWrite 0x02#5 0x0F#64)
    { State.reset with enc := { Encoder.reset with ctl := { Control.reset with done := true, ovr := true } } })).map
    (fun t => readReg 0x02#5 t) = some 0x12#64 := by decide

/-- V-10. -/
theorem test_reserved_write : nextOf (runEvent (.hostWrite 0x07#5 0x1234#64) State.reset) = some State.reset := by decide

/-- V-11. -/
theorem test_ilen_write : (nextOf (runEvent (.hostWrite 0x0A#5 0x1F#64) State.reset)).map (fun t => readReg 0x0A#5 t)
    = some 0xF#64 := by decide

/-- V-12. -/
theorem test_ibuf_hi_write : (nextOf (runEvent (.hostWrite 0x09#5 0xFFFFFFFFFFFF0102#64) State.reset)).map
    (fun t => (readReg 0x09#5 t, readByte t.dec.ibuf 8, readByte t.dec.ibuf 9)) = some (0x0102#64, 0x02#8, 0x01#8) := by decide

/-- V-13. -/
theorem test_hazard : faultOf (runEvent (.hostWrite 0x0A#5 3#64) (decStream false .w32 [])) = some .hazardIbufWriteWhileBusy := by
  decide

/-- V-14. -/
theorem test_encVal_write_busy : (nextOf (runEvent (.hostWrite 0x01#5 7#64) (encBusy false .w64 9#64 0#4))).map
    (fun t => (readReg 0x01#5 t, t.enc.work)) = some (7#64, 9#64) := by decide

/-- V-16. -/
theorem test_partial_access : refusalOf (runEvent (.hostPartial (.narrow 0x01#5 32)) State.reset) = some .refusedPartialAccess := by
  decide

/-- X-2: reset abandons the operation and the sink keeps its bytes. -/
theorem test_reset : (nextOf (runEvent .reset { encBusy false .w64 1#64 3#4 with sink := [0x80#8, 0x80#8, 0x80#8] })).map
    (fun t => (readReg 0x02#5 t, readReg 0x03#5 t, t.sink)) = some (0#64, 0#64, [0x80#8, 0x80#8, 0x80#8]) := by decide

/-! ### Witnesses: every statement with hypotheses has a state and operands that meet them -/

theorem witness_decodeByReservedBits : (15#64 : Word).toNat < 16 ∧ 16 ≤ (16#64 : Word).toNat := by decide

theorem witness_vencAccepted : (∀ i ∈ [Instr.vencU32, .vencS32, .vencU64, .vencS64, .vencU32Buf, .vencS32Buf, .vencU64Buf,
    .vencS64Buf], i.unit = .enc) ∧ State.reset.enc.ctl.busy = false := by decide

theorem witness_vencAccepted_turn : ∃ t, runEvent (.encoder true) (encBusy false .w32 300#64 0#4) = .next t := ⟨_, rfl⟩

theorem witness_vdecAccepted : (∀ i ∈ [Instr.vdecU32, .vdecS32, .vdecU64, .vdecS64, .vdecU32Buf, .vdecS32Buf, .vdecU64Buf,
    .vdecS64Buf], i.unit = .dec) ∧ State.reset.dec.ctl.busy = false := by decide

theorem witness_busyCommandDropped : (0x10#64 : Word).getLsbD 3 = false ∧ (encBusy false .w64 1#64 0#4).enc.ctl.busy = true
    ∧ (0x1F#64 : Word).getLsbD 3 = true ∧ (decStream false .w32 []).dec.ctl.busy = true := by decide

/-- Each way OVR goes or stays: a write of 1 to bit 4 of the right STATUS, reset, and any other agent step. -/
theorem witness_ovrSticky : ∃ s t u v : State, s.enc.ctl.ovr = true ∧ s.dec.ctl.ovr = true
    ∧ runEvent (clearOvr .enc) s = .next t ∧ runEvent (clearOvr .dec) s = .next u ∧ runEvent .reset s = .next v :=
  ⟨{ State.reset with
      enc := { Encoder.reset with ctl := { Control.reset with ovr := true } }
      dec := { Decoder.reset with ctl := { Control.reset with ovr := true } } }, _, _, _, rfl, rfl, rfl, rfl, rfl⟩

theorem witness_illegalCommand : 16 ≤ (0x10#64 : Word).toNat ∧ (0x10#64 : Word).getLsbD 3 = false
    ∧ 16 ≤ (0x18#64 : Word).toNat ∧ (0x18#64 : Word).getLsbD 3 = true
    ∧ State.reset.enc.ctl.busy = false ∧ State.reset.dec.ctl.busy = false := by decide

theorem witness_vencFrame_idle : ∃ t, Instr.vencU64Buf.unit = .enc ∧ Instr.vencU64Buf.buffer = true
    ∧ State.reset.enc.ctl.busy = false ∧ exec .vencU64Buf State.reset = .next t := ⟨_, rfl, rfl, rfl, rfl⟩

theorem witness_vencFrame_stream : ∃ t, Instr.vencU64.buffer = false ∧ exec .vencU64 State.reset = .next t := ⟨_, rfl, rfl⟩

theorem witness_vencFrame_busy : ∃ t, (encBusy true .w32 1#64 0#4).enc.ctl.busy = true
    ∧ exec .vencU64Buf (encBusy true .w32 1#64 0#4) = .next t := ⟨_, rfl, rfl⟩

theorem witness_vdecFrame_idle : ∃ t, Instr.vdecU32.unit = .dec ∧ State.reset.dec.ctl.busy = false
    ∧ exec .vdecU32 State.reset = .next t := ⟨_, rfl, rfl, rfl⟩

theorem witness_vdecFrame_busy : ∃ t, (decStream false .w32 []).dec.ctl.busy = true
    ∧ exec .vdecU32 (decStream false .w32 []) = .next t := ⟨_, rfl, rfl⟩

theorem witness_stepRunsNextEvent : (placeCommand 0x5#64 State.reset).agenda = [.hostWrite 0x00#5 0x5#64]
    ∧ State.reset.agenda = [] := by decide

theorem witness_stepRunsDecodedCommand : (placeCommand 0x5#64 State.reset).agenda = .hostWrite 0x00#5 0x5#64 :: []
    ∧ decode 0x5#64 = .legal .vencS32Buf := by decide

theorem witness_runOverAgenda : ∃ t, runEvents [issue .vencU32, .encoder true] { State.reset with agenda := [.reset] } = .next t :=
  ⟨_, rfl⟩

theorem witness_reservedReads : (6#5 : RegNo).toNat = 6 ∧ (7#5 : RegNo).toNat = 7 ∧ 14 ≤ (14#5 : RegNo).toNat
    ∧ 14 ≤ (31#5 : RegNo).toNat := by decide

theorem witness_statusWord : ((0x02#5 : RegNo) = 0x02#5 ∧ (encBusy false .w32 1#64 0#4).enc.ctl.busy = true)
    ∧ ((0x0B#5 : RegNo) = 0x0B#5 ∧ (decStream false .w32 []).dec.ctl.busy = true) ∧ 5 ≤ 63 := by decide

theorem witness_readOnlyWrites : (3 ≤ (0x03#5 : RegNo).toNat ∧ (0x03#5 : RegNo).toNat ≤ 7)
    ∧ (3 ≤ (0x07#5 : RegNo).toNat ∧ (0x07#5 : RegNo).toNat ≤ 7) ∧ 12 ≤ (0x0C#5 : RegNo).toNat ∧ 12 ≤ (0x1F#5 : RegNo).toNat := by
  decide

theorem witness_decoderInputWrites : State.reset.dec.ctl.busy = false ∧ memWf State.reset.dec.ibuf = true
    ∧ memWf [(0, 0x80#8), (9, 0x01#8)] = true := by decide

theorem witness_hazardFault : 8 ≤ (0x08#5 : RegNo).toNat ∧ (0x0A#5 : RegNo).toNat ≤ 10
    ∧ (decStream false .w32 []).dec.ctl.busy = true ∧ (decBuffer false .w32 [] 0#4).dec.ctl.busy = true := by decide

theorem witness_bufferPacking : 7 < 8 ∧ 8 ≤ 8 ∧ 9 < 10
    ∧ readByte [(7, 0xAA#8), (8, 0xBB#8), (9, 0xCC#8)] 9 = 0xCC#8 := by decide

theorem witness_resetReadsZero : ∃ t, runEvent .reset (encBusy true .w64 1#64 3#4) = .next t := ⟨_, rfl⟩

theorem witness_encoderStreamStep : (encBusy false .w64 127#64 9#4).enc.ctl.busy = true
    ∧ (encBusy false .w64 127#64 9#4).enc.ctl.buffer = false := by decide

theorem witness_encoderBufferStep : (encBusy true .w64 128#64 9#4).enc.ctl.busy = true
    ∧ (encBusy true .w64 128#64 9#4).enc.ctl.buffer = true ∧ (encBusy true .w64 128#64 9#4).enc.ctl.cnt.toNat < 10
    ∧ memWf (encBusy true .w64 128#64 9#4).enc.obuf = true ∧ 10 ≤ (encBusy true .w64 128#64 10#4).enc.ctl.cnt.toNat := by decide

theorem witness_stalledTurns : State.reset.enc.ctl.busy = false ∧ State.reset.dec.ctl.busy = false
    ∧ (encBusy false .w32 1#64 0#4).enc.ctl.buffer = false ∧ (decStream false .w32 []).dec.ctl.buffer = false := by decide

theorem witness_turnFrames : (∃ t, runEvent (.encoder true) (encBusy false .w32 1#64 0#4) = .next t)
    ∧ (∃ t, runEvent (.encoder false) (encBusy true .w32 1#64 0#4) = .next t)
    ∧ (∃ t, runEvent (.decoder true) (decStream false .w32 [.eoi]) = .next t)
    ∧ (∃ t, runEvent (.decoder false) (decBuffer false .w32 [] 0#4) = .next t) := ⟨⟨_, rfl⟩, ⟨_, rfl⟩, ⟨_, rfl⟩, ⟨_, rfl⟩⟩

theorem witness_zigzagWidths : 0 < 32 ∧ 0 < 64 := by decide

theorem witness_encodedLength : 1 ≤ 10 ∧ (0xFFFFFFFFFFFFFFFF#64 : Word).toNat < 2 ^ (7 * 10)
    ∧ (0xFFFFFFFF#64 : Word).toNat < 2 ^ Width.w32.bits ∧ (0xFFFFFFFFFFFFFFFF#64 : Word).toNat < 2 ^ Width.w64.bits := by decide

theorem witness_encodeClosedForm : 0 < encodedLen 0#64 ∧ 9 < encodedLen 0x8000000000000000#64 ∧ 2 ≤ encodedLen 0x80#64
    ∧ (0xFFFFFFFF#64 : Word).toNat < 2 ^ 32 ∧ (0x7F#64 : Word).toNat < (0x80#64 : Word).toNat := by decide

theorem witness_streamEncodeWhole : (∀ i ∈ [Instr.vencU32, .vencS32, .vencU64, .vencS64], i.unit = .enc ∧ i.buffer = false)
    ∧ State.reset.enc.ctl.busy = false ∧ encodedLen (encoderOperand false .w64 0xFFFFFFFFFFFFFFFF#64) ≤ 10 := by decide

theorem witness_bufferEncodeWhole : (∀ i ∈ [Instr.vencU32Buf, .vencS32Buf, .vencU64Buf, .vencS64Buf], i.unit = .enc
    ∧ i.buffer = true) ∧ State.reset.enc.ctl.busy = false ∧ encodedLen (encoderOperand true .w32 0x80000000#64) ≤ 5 := by decide

/-- A host write, a read, a clear of OVR and a stalled turn stand among the two turns that the stream encode of 300 needs. -/
theorem witness_encodeInterleaved : ∃ t,
    let es := [.encoder true, .hostWrite 0x01#5 5#64, poll .enc, .encoder false, clearOvr .enc, .decoder true, .encoder true]
    (∀ e ∈ es, sparesUnit .enc e = true) ∧ runEvents (issue .vencU32 :: es) (withVal 300#64) = .next t
    ∧ encodedLen (encoderOperand false .w32 300#64) ≤ encoderTurns false es := ⟨_, by decide, rfl, by decide⟩

theorem witness_encodeInterleaved_buffer : ∃ t,
    let es := [.encoder false, .hostWrite 0x00#5 0xC#64, .encoder false]
    (∀ e ∈ es, sparesUnit .enc e = true) ∧ runEvents (issue .vencU32Buf :: es) (withVal 300#64) = .next t
    ∧ encodedLen (encoderOperand false .w32 300#64) ≤ encoderTurns true es := ⟨_, by decide, rfl, by decide⟩

theorem witness_encodeParity : ∃ t u, Instr.vencU32.signed = Instr.vencU32Buf.signed
    ∧ Instr.vencU32.width = Instr.vencU32Buf.width
    ∧ runEvents (issue .vencU32 :: List.replicate (maxBytes .w32) (.encoder true)) (withVal 5#64) = .next t
    ∧ runEvents (issue .vencU32Buf :: List.replicate (maxBytes .w32) (.encoder true)) (withVal 5#64) = .next u :=
  ⟨_, _, rfl, rfl, rfl, rfl⟩

theorem witness_encodeParity_widths : (0xFFFFFFFF#64 : Word).toNat < 2 ^ 32 ∧ -2 ^ 31 ≤ (0xFFFFFFFF80000000#64 : Word).toInt
    ∧ (0xFFFFFFFF80000000#64 : Word).toInt < 2 ^ 31 := by decide

theorem witness_decodedResult : (0xFFFFFFFF#64 : Word).toNat < 2 ^ Width.w32.bits
    ∧ (0xFFFFFFFFFFFFFFFF#64 : Word).toNat < 2 ^ Width.w64.bits := by decide

theorem witness_decoderEndOfInput : (decStream false .w32 [.eoi, .eoi]).dec.ctl.buffer = false
    ∧ (decStream false .w32 [.eoi, .eoi]).source = .eoi :: [.eoi] ∧ (decBuffer false .w32 [] 0#4).dec.ctl.buffer = true
    ∧ min (decBuffer false .w32 [] 0#4).dec.ilen.toNat 10 ≤ (decBuffer false .w32 [] 0#4).dec.ctl.cnt.toNat := by decide

theorem witness_decoderMalformed_stream :
    TakesByte (decFifth false 0x80#8) true 0x80#8 false { decFifth false 0x80#8 with source := [.eoi] }
    ∧ 128 ≤ (0x80#8 : Byte).toNat ∧ (decFifth false 0x80#8).dec.ctl.cnt.toNat + 1 = maxBytes .w32 :=
  ⟨⟨rfl, .inl (by decide)⟩, by decide, by decide⟩

theorem witness_decoderMalformed_buffer : TakesByte (decFifth true 0x80#8) false 0x80#8 true (decFifth true 0x80#8) :=
  ⟨rfl, .inr (by decide)⟩

theorem witness_decoderContinues_stream :
    TakesByte (decStream false .w32 [.byte 0xFF#8]) true 0xFF#8 false { decStream false .w32 [.byte 0xFF#8] with source := [] }
    ∧ 128 ≤ (0xFF#8 : Byte).toNat ∧ (decStream false .w32 []).dec.ctl.cnt.toNat + 1 ≠ maxBytes .w32 :=
  ⟨⟨rfl, .inl (by decide)⟩, by decide, by decide⟩

theorem witness_decoderContinues_buffer :
    TakesByte (decBuffer false .w64 [(0, 0x80#8)] 15#4) true 0x80#8 false (decBuffer false .w64 [(0, 0x80#8)] 15#4) :=
  ⟨rfl, .inr (by decide)⟩

theorem witness_emptySource : (decStream false .w32 []).dec.ctl.busy = true ∧ (decStream false .w32 []).dec.ctl.buffer = false
    ∧ (decStream false .w32 []).source = [] := by decide

theorem witness_decoderCompletes_terminator :
    TakesByte (decFifth false 0x7F#8) true 0x7F#8 false { decFifth false 0x7F#8 with source := [.eoi] }
    ∧ (0x7F#8 : Byte).toNat < 128 := ⟨⟨rfl, .inl (by decide)⟩, by decide⟩

theorem witness_decoderCompletes_lastByte :
    TakesByte (decBuffer false .w32 [(0, 0xFF#8)] 1#4) true 0xFF#8 true (decBuffer false .w32 [(0, 0xFF#8)] 1#4)
    ∧ (decBuffer false .w32 [(0, 0xFF#8)] 1#4).dec.ctl.cnt.toNat + 1 ≠ maxBytes .w32 :=
  ⟨⟨rfl, .inr (by decide)⟩, by decide⟩

theorem witness_streamDecodeWhole : (∀ i ∈ [Instr.vdecU32, .vdecS32, .vdecU64, .vdecS64], i.unit = .dec ∧ i.buffer = false)
    ∧ State.reset.dec.ctl.busy = false
    ∧ SourceGives .w32 [.byte 0x80#8, .eoi, .byte 0x01#8] [0x80#8] ∧ SourceGives .w32 [.byte 0xAC#8, .byte 0x02#8] [0xAC#8, 0x02#8]
    ∧ SourceGives .w32 (List.replicate 5 (.byte 0x80#8)) (List.replicate 5 0x80#8) ∧ SourceGives .w64 [.eoi] [] := by decide

theorem witness_bufferDecodeWhole : (∀ i ∈ [Instr.vdecU32Buf, .vdecS32Buf, .vdecU64Buf, .vdecS64Buf], i.unit = .dec
    ∧ i.buffer = true) ∧ State.reset.dec.ctl.busy = false := by decide

theorem witness_decodeInterleaved : ∃ t,
    let es := [.decoder true, .hostWrite 0x01#5 5#64, .decoder true, poll .dec, .decoder false, .decoder true, issue .vencU32,
      .decoder true, .decoder true]
    (∀ e ∈ es, sparesUnit .dec e = true)
    ∧ runEvents (issue .vdecU32 :: es) { State.reset with source := [.byte 0xAC#8, .byte 0x02#8, .eoi] } = .next t
    ∧ maxBytes .w32 ≤ decoderTurns false es ∧ Instr.vdecU32.buffer = false
    ∧ SourceGives .w32 [.byte 0xAC#8, .byte 0x02#8, .eoi] [0xAC#8, 0x02#8] := ⟨_, by decide, rfl, by decide, rfl, by decide⟩

theorem witness_decodeInterleaved_buffer : ∃ t,
    let es := List.replicate 5 (Event.decoder false)
    (∀ e ∈ es, sparesUnit .dec e = true) ∧ runEvents (issue .vdecU32Buf :: es) State.reset = .next t
    ∧ maxBytes .w32 ≤ decoderTurns true es ∧ Instr.vdecU32Buf.buffer = true := ⟨_, by decide, rfl, by decide, rfl⟩

theorem witness_streamRoundTrip : (∀ p ∈ [(Instr.vencU32, Instr.vdecU32), (.vencS32, .vdecS32), (.vencU64, .vdecU64),
    (.vencS64, .vdecS64)], p.1.unit = .enc ∧ p.2.unit = .dec ∧ p.1.signed = p.2.signed ∧ p.1.width = p.2.width
      ∧ p.1.buffer = false ∧ p.2.buffer = false) ∧ State.reset.enc.ctl.busy = false ∧ State.reset.dec.ctl.busy = false := by decide

theorem witness_bufferRoundTrip : (∀ p ∈ [(Instr.vencU32Buf, Instr.vdecU32Buf), (.vencS32Buf, .vdecS32Buf),
    (.vencU64Buf, .vdecU64Buf), (.vencS64Buf, .vdecS64Buf)], p.1.unit = .enc ∧ p.2.unit = .dec ∧ p.1.signed = p.2.signed
      ∧ p.1.width = p.2.width ∧ p.1.buffer = true ∧ p.2.buffer = true) ∧ memWf State.reset.dec.ibuf = true := by decide

/-- States in the middle of an operation meet the invariant: an encoder with nine bytes in OBUF, a decoder at its fifth byte. -/
theorem witness_inv_encoder : ({ encBusy true .w64 1#64 9#4 with
    enc := { (encBusy true .w64 1#64 9#4).enc with obuf := [(0, 0x80#8), (8, 0x80#8)] } } : State).Inv := by decide

theorem witness_inv_decoder : (decFifth true 0x80#8).Inv := by decide

theorem witness_invariantKept : ∃ t, (placeCommand 0xF#64 (decFifth true 0x80#8)).Inv
    ∧ step (placeCommand 0xF#64 (decFifth true 0x80#8)) = .next t := ⟨_, by decide, rfl⟩

theorem witness_onlyTheHazardFaults : (∃ f, runEvent (.hostWrite 0x0A#5 3#64) (decFifth true 0x80#8) = .fault f)
    ∧ ∃ r, runEvent (.hostPartial (.narrow 0x01#5 32)) (decFifth true 0x80#8) = .refused r := ⟨⟨_, rfl⟩, _, rfl⟩

theorem witness_stoppedRun : (∃ f, runEvents [.hostWrite 0x08#5 3#64, .reset] (decFifth true 0x80#8) = .fault f)
    ∧ ∃ r, runEvents [.hostPartial (.narrow 0x01#5 32), .reset] (decFifth true 0x80#8) = .refused r := ⟨⟨_, rfl⟩, _, rfl⟩

theorem witness_operationsEnd_encoder : ∃ t, (encBusy false .w64 1#64 9#4).Inv
    ∧ runEvents [.encoder false, .encoder true] (encBusy false .w64 1#64 9#4) = .next t
    ∧ maxBytes .w64 - 9 ≤ encoderTurns false [.encoder false, .encoder true] := ⟨_, by decide, rfl, by decide⟩

theorem witness_operationsEnd_decoder : ∃ t, (decFifth true 0x80#8).Inv
    ∧ runEvents [.decoder false] (decFifth true 0x80#8) = .next t
    ∧ maxBytes .w32 - 4 ≤ decoderTurns true [.decoder false] := ⟨_, by decide, rfl, by decide⟩

/-- One encoder turn ends the operation; every later turn stutters. -/
theorem witness_operationsEndUnderFairness_encoder : ∃ (sched : Nat → Event) (path : Nat → State),
    (path 0).Inv ∧ FollowsSchedule sched path ∧ EncoderFair sched path ∧ (path 0).enc.ctl.busy = true := by
  refine ⟨fun _ => .encoder true, fun n => match n with
    | 0 => encBusy false .w32 1#64 0#4
    | _ + 1 => { State.reset with
        sink := [0x01#8], enc := { State.reset.enc with ctl := { State.reset.enc.ctl with done := true, cnt := 1#4 }, work := 1#64 } },
    by decide, ?_, fun n _ => ⟨n, Nat.le_refl n, ?_⟩, by decide⟩
  · intro n; cases n <;> rfl
  · cases n <;> rfl

/-- One decoder turn ends the operation; every later turn stutters. -/
theorem witness_operationsEndUnderFairness_decoder : ∃ (sched : Nat → Event) (path : Nat → State),
    (path 0).Inv ∧ FollowsSchedule sched path ∧ DecoderFair sched path ∧ (path 0).dec.ctl.busy = true := by
  refine ⟨fun _ => .decoder false, fun n => match n with
    | 0 => decBuffer false .w32 [] 0#4
    | _ + 1 => { decBuffer false .w32 [] 0#4 with dec := { (decBuffer false .w32 [] 0#4).dec with
        ctl := { (decBuffer false .w32 [] 0#4).dec.ctl with busy := false, done := true, err := .endOfInput } } },
    by decide, ?_, fun n _ => ⟨n, Nat.le_refl n, ?_⟩, by decide⟩
  · intro n; cases n <;> rfl
  · cases n <;> rfl

theorem witness_unitsIndependent : ∃ t t', (encBusy false .w32 1#64 0#4).enc = ({ encBusy false .w32 1#64 0#4 with
      dec := (decFifth true 0x80#8).dec } : State).enc
    ∧ runEvents [.encoder true, .decoder true] (encBusy false .w32 1#64 0#4) = .next t
    ∧ runEvents [.encoder true, .decoder true] { encBusy false .w32 1#64 0#4 with dec := (decFifth true 0x80#8).dec } = .next t' :=
  ⟨_, _, rfl, rfl, rfl⟩

/-- A finished encoder (ENC_LEN = 1) while the decoder goes on, and the other way round. -/
theorem witness_resultsStable : ∃ t,
    let s : State := { decFifth true 0x80#8 with
      enc := { Encoder.reset with ctl := { Control.reset with done := true, cnt := 1#4 }, obuf := [(0, 0x7F#8)] } }
    s.Inv ∧ s.enc.ctl.done = true ∧ runEvents [.decoder true, .encoder true, .hostWrite 0x01#5 3#64] s = .next t :=
  ⟨_, by decide, rfl, rfl⟩

theorem witness_resultsStable_decoder : ∃ t,
    let s : State := { encBusy false .w32 1#64 0#4 with
      dec := { Decoder.reset with ctl := { Control.reset with done := true, err := .endOfInput }, result := 9#64 } }
    s.Inv ∧ s.dec.ctl.done = true ∧ runEvents [.decoder true, .encoder true, .hostWrite 0x08#5 3#64] s = .next t :=
  ⟨_, by decide, rfl, rfl⟩

theorem witness_resultWritten : ∃ t, runEvent (.decoder true) (decStream false .w32 [.byte 0x7F#8]) = .next t
    ∧ t.dec.result ≠ (decStream false .w32 [.byte 0x7F#8]).dec.result := ⟨_, rfl, by decide⟩

theorem witness_onlyResetAbandons : (∃ t, runEvent (.encoder true) (encBusy false .w32 1#64 0#4) = .next t
      ∧ (encBusy false .w32 1#64 0#4).enc.ctl.busy = true ∧ t.enc.ctl.busy = false)
    ∧ (∃ t, runEvent .reset (decFifth true 0x80#8) = .next t ∧ (decFifth true 0x80#8).dec.ctl.busy = true
      ∧ t.dec.ctl.busy = false) := ⟨⟨_, rfl, rfl, rfl⟩, ⟨_, rfl, rfl, rfl⟩⟩

theorem witness_streamsOneByOne : (∃ t, runEvent (.encoder true) (encBusy false .w32 1#64 0#4) = .next t)
    ∧ (∃ t, runEvent (.decoder true) (decStream false .w32 [.byte 0x7F#8]) = .next t)
    ∧ (∃ t, runEvent .reset (encBusy false .w32 1#64 0#4) = .next t) := ⟨⟨_, rfl⟩, ⟨_, rfl⟩, ⟨_, rfl⟩⟩

end Sys2Proof.Tests
end

section
/-! What an agent step makes of each unit, said once: the state after every operation of the model as a function of one unit's
own data, so that invariants, frames and noninterference are facts about one unit. -/

namespace Sys2Proof.Machine

/-! ### Flags and command words -/

/-- A STATUS write as one update of OVR, the only flag it can change (10_state R27). -/
theorem Control.statusWrite_eq (c : Control) (v : Word) :
    c.statusWrite v = { c with ovr := c.ovr && !v.getLsbD 4 } := by
  unfold Control.statusWrite
  cases v.getLsbD 4
  · simp
  · simp

/-- A counter below MAXB(W) does not wrap. -/
theorem Control.count_cnt_toNat {c : Control} (h : c.cnt.toNat < maxBytes c.width) :
    c.count.cnt.toNat = c.cnt.toNat + 1 := by
  have hmax := maxBytes_le_ten c.width
  rw [Control.count_cnt, BitVec.toNat_add, BitVec.toNat_ofNat]
  omega

/-! ### The encoder alone -/

/-- The encoder after it has accepted a command with ENC_VAL = `x` (40_encoder R105). -/
def Encoder.accept (signed : Bool) (w : Width) (buffer : Bool) (x : Word) (d : Encoder) : Encoder :=
  { ctl := d.ctl.accept signed w buffer
    work := encoderOperand signed w x
    obuf := if buffer then [] else d.obuf }

/-- The encoder after a CMD write (30_encoding R88). -/
def Encoder.command (c : Decoded) (x : Word) (d : Encoder) : Encoder :=
  match c with
  | .legal i =>
    if i.unit = .dec then d
    else if d.ctl.busy then { d with ctl := d.ctl.drop }
    else d.accept i.signed i.width i.buffer x
  | .illegalCmd .enc => { d with ctl := if d.ctl.busy then d.ctl.drop else d.ctl.illegal }
  | .illegalCmd .dec => d

/-- The encoder after a host write to another register. -/
def Encoder.store (r : HostReg) (v : Word) (d : Encoder) : Encoder :=
  match r with
  | .encStatus => { d with ctl := d.ctl.statusWrite v }
  | _ => d

/-- The encoder after it has emitted one byte. -/
def Encoder.emit (d : Encoder) : Encoder :=
  encoderAdvance (if d.ctl.buffer then { d with obuf := writeByte d.obuf d.ctl.cnt.toNat (outByte d.work) } else d)

/-- The encoder after one of its turns (40_encoder R107). -/
def Encoder.turn (accepts : Bool) (d : Encoder) : Encoder :=
  if d.ctl.busy && (d.ctl.buffer || accepts) then d.emit else d

/-- The encoder after an agent step, from the encoder and ENC_VAL = `x` alone. -/
def Encoder.after (e : Event) (x : Word) (d : Encoder) : Encoder :=
  match e with
  | .hostWrite n v => if hostReg n = .cmd then d.command (decode v) x else d.store (hostReg n) v
  | .encoder accepts => d.turn accepts
  | .reset => Encoder.reset
  | .hostRead _ => d
  | .hostPartial _ => d
  | .decoder _ => d

/-- ENC_VAL = `x` after an agent step. -/
def encValAfter (e : Event) (x : Word) : Word :=
  match e with
  | .hostWrite n v => if hostReg n = .encVal then v else x
  | .reset => 0#64
  | _ => x

/-! ### The decoder alone -/

/-- The decoder after a CMD write (30_encoding R88). -/
def Decoder.command (c : Decoded) (d : Decoder) : Decoder :=
  match c with
  | .legal i =>
    if i.unit = .enc then d
    else if d.ctl.busy then { d with ctl := d.ctl.drop }
    else decoderInit i.signed i.width i.buffer d
  | .illegalCmd .dec => { d with ctl := if d.ctl.busy then d.ctl.drop else d.ctl.illegal }
  | .illegalCmd .enc => d

/-- The decoder after a host write to another register that is not the hazard. -/
def Decoder.store (r : HostReg) (v : Word) (d : Decoder) : Decoder :=
  match r with
  | .decStatus => { d with ctl := d.ctl.statusWrite v }
  | .decIbufLo => { d with ibuf := unpackBytes d.ibuf 0 8 v }
  | .decIbufHi => { d with ibuf := unpackBytes d.ibuf 8 2 v }
  | .decIlen => { d with ilen := v.extractLsb' 0 4 }
  | _ => d

/-- The registers whose writes are the hazard while the decoder is busy (70_reset_and_hazards R234). -/
def HostReg.isDecoderInput : HostReg → Bool
  | .decIbufLo | .decIbufHi | .decIlen => true
  | _ => false

/-- The decoder after an error completion (60_exceptions R205). -/
def Decoder.fail (e : ErrCode) (d : Decoder) : Decoder := { d with ctl := d.ctl.complete e }

/-- The decoder after it has consumed the byte `x` (41_decoder R145 to R148). -/
def Decoder.consume (x : Byte) (lastAvail : Bool) (d : Decoder) : Decoder :=
  (consumeByte x lastAvail { State.reset with dec := d }).dec

/-- The decoder after a step in stream mode with the source's answer `r` (41_decoder R143). -/
def Decoder.answer (r : Response) (d : Decoder) : Decoder :=
  match r with
  | .eoi => d.fail .endOfInput
  | .byte x => d.consume x false

/-- The decoder after a step in buffer mode (41_decoder R144). -/
def Decoder.bufferStep (d : Decoder) : Decoder :=
  if effectiveLen d.ilen ≤ d.ctl.cnt.toNat then d.fail .endOfInput
  else d.consume (readByte d.ibuf d.ctl.cnt.toNat) (decide (d.ctl.cnt.toNat + 1 = effectiveLen d.ilen))

/-- Whether a turn of the decoder takes a response from the source (41_decoder R143). -/
def Decoder.takesResponse (answers : Bool) (d : Decoder) : Bool := d.ctl.busy && !d.ctl.buffer && answers

/-- The decoder after one of its turns, `r` being the source's next response. -/
def Decoder.turn (answers : Bool) (r : Response) (d : Decoder) : Decoder :=
  if d.takesResponse answers then d.answer r
  else if d.ctl.busy && d.ctl.buffer then d.bufferStep
  else d

/-- The decoder after an agent step, from the decoder and the source's next response `r` alone. -/
def Decoder.after (e : Event) (r : Response) (d : Decoder) : Decoder :=
  match e with
  | .hostWrite n v => if hostReg n = .cmd then d.command (decode v) else d.store (hostReg n) v
  | .decoder answers => d.turn answers r
  | .reset => Decoder.reset
  | .hostRead _ => d
  | .hostPartial _ => d
  | .encoder _ => d

/-- The state whose source part is what stays of the source after an agent step. -/
def sourceAfter (e : Event) (s : State) : State :=
  match e with
  | .decoder answers => if s.dec.takesResponse answers then (sourceRead s).2 else s
  | _ => s

/-! ### The model's operations in these terms -/

theorem encoderInit_eq (signed : Bool) (w : Width) (buffer : Bool) (s : State) :
    encoderInit signed w buffer s = s.enc.accept signed w buffer s.encVal := rfl

theorem exec_eq (i : Instr) (s : State) :
    exec i s = .next { s with
      enc := s.enc.command (.legal i) s.encVal
      dec := s.dec.command (.legal i) } := by
  cases hu : i.unit with
  | enc => cases hb : s.enc.ctl.busy <;>
      simp [exec_enc i s hu, issueEncoder, Encoder.command, Decoder.command, hu, hb, encoderInit_eq]
  | dec => cases hb : s.dec.ctl.busy <;>
      simp [exec_dec i s hu, issueDecoder, Encoder.command, Decoder.command, hu, hb]

theorem cmdWrite_eq (v : Word) (s : State) :
    cmdWrite v s = .next { s with
      enc := s.enc.command (decode v) s.encVal
      dec := s.dec.command (decode v) } := by
  unfold cmdWrite
  cases decode v with
  | legal i => exact exec_eq i s
  | illegalCmd u => cases u <;> rfl

theorem storeReg_next {n : RegNo} {v : Word} {s t : State} (h : storeReg n v s = .next t) :
    t = { s with
      enc := s.enc.store (hostReg n) v
      dec := s.dec.store (hostReg n) v
      encVal := if hostReg n = .encVal then v else s.encVal } := by
  unfold storeReg at h
  cases hr : hostReg n <;> rw [hr] at h
  case decIbufLo | decIbufHi | decIlen => exact (writeDecoderInput_next h).2
  all_goals exact (Host.Outcome.next.inj h).symm

/-- A decoder-input write that has a next state found the decoder idle (70_reset_and_hazards R234). -/
theorem storeReg_idle {n : RegNo} {v : Word} {s t : State} (h : storeReg n v s = .next t)
    (hin : (hostReg n).isDecoderInput = true) : s.dec.ctl.busy = false := by
  unfold storeReg at h
  cases hr : hostReg n <;> rw [hr] at h hin
  case decIbufLo | decIbufHi | decIlen => exact (writeDecoderInput_next h).1
  all_goals exact absurd hin Bool.false_ne_true

theorem encoderTurn_frame {a : Bool} {s t : State} (h : encoderTurn a s = .next t) :
    t = { s with enc := s.enc.turn a, sink := t.sink } := by
  rcases encoderTurn_next h with ⟨hoff, rfl⟩ | ⟨hb, hm, rfl, rfl⟩ | ⟨hb, hm, rfl⟩
  · rcases hoff with hb | ⟨hm, rfl⟩
    · simp [Encoder.turn, hb]
    · simp [Encoder.turn, hm]
  · simp [Encoder.turn, Encoder.emit, hb, hm]
  · simp [Encoder.turn, Encoder.emit, hb, hm]

theorem consumeByte_dec (x : Byte) (last : Bool) (s : State) :
    (consumeByte x last s).dec = s.dec.consume x last := by
  simp only [Decoder.consume, consumeByte]
  split
  · rfl
  · split <;> rfl

/-- The three things one input byte can do to the decoder. -/
theorem Decoder.consume_cases (x : Byte) (last : Bool) (d : Decoder) :
    (contBit x = true ∧ d.ctl.count.cnt.toNat = maxBytes d.ctl.width ∧
      d.consume x last = { d with ctl := d.ctl.count.complete .malformedVarint }) ∨
    (contBit x = true ∧ d.ctl.count.cnt.toNat ≠ maxBytes d.ctl.width ∧ last = false ∧
      d.consume x last = continueInput (countInput d) x) ∨
    ((contBit x = false ∨ (d.ctl.count.cnt.toNat ≠ maxBytes d.ctl.width ∧ last = true)) ∧
      d.consume x last = finishInput (countInput d) x) :=
  consumeByte_cases x last { State.reset with dec := d }

theorem sourceRead_frame (s : State) :
    (sourceRead s).2 = { s with source := (sourceRead s).2.source, sourcePos := (sourceRead s).2.sourcePos } := by
  rcases sourceRead_cases s with ⟨r, rest, _, h⟩ | ⟨_, h⟩
  · rw [h]
  · rw [h]

theorem decoderStream_eq (s : State) :
    decoderStream s = { (sourceRead s).2 with dec := s.dec.answer (sourceRead s).1 } := by
  have hdec : (sourceRead s).2.dec = s.dec := by rw [sourceRead_frame]
  unfold decoderStream
  rcases hsr : sourceRead s with ⟨r, u⟩
  rw [hsr] at hdec
  cases r with
  | eoi =>
    rw [← hdec]
    rfl
  | byte x =>
    simp only [Decoder.answer]
    rw [consumeByte_frame, consumeByte_dec, hdec]

theorem decoderBuffer_eq (s : State) : decoderBuffer s = { s with dec := s.dec.bufferStep } := by
  simp only [decoderBuffer, Decoder.bufferStep]
  split
  · rfl
  · rw [consumeByte_frame, consumeByte_dec]

/-- What an agent step leaves of the source changes nothing else. -/
theorem sourceAfter_frame (e : Event) (s : State) :
    sourceAfter e s = { s with source := (sourceAfter e s).source, sourcePos := (sourceAfter e s).sourcePos } := by
  cases e with
  | decoder a =>
    by_cases ht : s.dec.takesResponse a = true
    · simp only [sourceAfter, ht, if_true]
      exact sourceRead_frame s
    · simp [sourceAfter, ht]
  | hostRead | hostWrite | hostPartial | encoder | reset => rfl

theorem decoderTurn_frame {a : Bool} {s t : State} (h : decoderTurn a s = .next t) :
    t = { sourceAfter (.decoder a) s with dec := s.dec.turn a (sourceRead s).1 } := by
  rcases decoderTurn_next h with ⟨hoff, rfl⟩ | ⟨hb, hm, rfl, rfl⟩ | ⟨hb, hm, rfl⟩
  · rcases hoff with hb | ⟨hm, rfl⟩
    · simp [sourceAfter, Decoder.turn, Decoder.takesResponse, hb]
    · simp [sourceAfter, Decoder.turn, Decoder.takesResponse, hm]
  · simp [sourceAfter, Decoder.turn, Decoder.takesResponse, hb, hm, decoderStream_eq]
  · simp [sourceAfter, Decoder.turn, Decoder.takesResponse, hb, hm, decoderBuffer_eq]

/-! ### The agent step -/

/-- Everything an agent step with a next state does to the units, ENC_VAL and the source, and that it was not the hazard. -/
structure AgentStep (e : Event) (s t : State) : Prop where
  enc : t.enc = s.enc.after e s.encVal
  encVal : t.encVal = encValAfter e s.encVal
  dec : t.dec = s.dec.after e (sourceRead s).1
  source : t.source = (sourceAfter e s).source
  sourcePos : t.sourcePos = (sourceAfter e s).sourcePos
  noHazard : ∀ n v, e = .hostWrite n v → (hostReg n).isDecoderInput = true → s.dec.ctl.busy = false

theorem writeReg_agentStep {n : RegNo} {v : Word} {s t : State} (h : writeReg n v s = .next t) :
    AgentStep (.hostWrite n v) s t := by
  unfold writeReg at h
  by_cases hr : hostReg n = .cmd
  · have hval : hostReg n ≠ .encVal := by rw [hr]; decide
    rw [if_pos hr, cmdWrite_eq] at h
    obtain rfl := Host.Outcome.next.inj h
    refine ⟨(if_pos hr).symm, (if_neg hval).symm, (if_pos hr).symm, rfl, rfl, ?_⟩
    rintro _ _ ⟨⟩ hin
    rw [hr] at hin
    exact absurd hin Bool.false_ne_true
  · rw [if_neg hr] at h
    have hidle := storeReg_idle h
    rw [storeReg_next h]
    refine ⟨(if_neg hr).symm, rfl, (if_neg hr).symm, rfl, rfl, ?_⟩
    rintro _ _ ⟨⟩ hin
    exact hidle hin

/-- Every agent step with a next state is described by `AgentStep`. -/
theorem runEvent_agentStep {e : Event} {s t : State} (h : runEvent e s = .next t) : AgentStep e s t := by
  cases e with
  | hostRead n => obtain rfl := Host.Outcome.next.inj h; exact ⟨rfl, rfl, rfl, rfl, rfl, nofun⟩
  | hostWrite n v => exact writeReg_agentStep h
  | hostPartial p => nomatch h
  | encoder a => rw [encoderTurn_frame h]; exact ⟨rfl, rfl, rfl, rfl, rfl, nofun⟩
  | decoder a =>
    rw [decoderTurn_frame h, sourceAfter_frame]
    exact ⟨rfl, rfl, rfl, rfl, rfl, nofun⟩
  | reset => obtain rfl := Host.Outcome.next.inj h; exact ⟨rfl, rfl, rfl, rfl, rfl, nofun⟩

end Sys2Proof.Machine
end

section
/-! The invariant of 10_state R40, unit by unit. -/

namespace Sys2Proof.Machine

theorem mem_consCell {m : Mem} {i : Nat} {b : Byte} {c : Host.Cell} (h : c ∈ consCell i b m) : c ∈ m ∨ c.1 = i := by
  unfold consCell at h
  split at h
  · exact .inl h
  · rcases List.mem_cons.1 h with rfl | hc
    · exact .inr rfl
    · exact .inl hc

theorem mem_insertByte {m : Mem} {i : Nat} {b : Byte} {c : Host.Cell} (h : c ∈ insertByte m i b) :
    c ∈ m ∨ c.1 = i := by
  induction m with
  | nil => exact mem_consCell h
  | cons d rest ih =>
    obtain ⟨a, x⟩ := d
    unfold insertByte at h
    split at h
    · exact mem_consCell h
    · split at h
      · exact (mem_consCell h).imp_left (List.mem_cons_of_mem _)
      · rcases List.mem_cons.1 h with rfl | hc
        · exact .inl (List.mem_cons_self ..)
        · exact (ih hc).imp_left (List.mem_cons_of_mem _)

/-- A byte write adds no cell but at its own index. -/
theorem mem_writeByte {m : Mem} {i : Nat} {b : Byte} {c : Host.Cell} (h : c ∈ writeByte m i b) :
    c ∈ m ∨ c.1 = i := by
  unfold writeByte at h
  split at h
  · exact mem_insertByte h
  · exact .inl h

/-! ### The encoder -/

/-- The encoder's operand fits the payload width (40_encoder R105). -/
theorem encoderOperand_lt (signed : Bool) (w : Width) (x : Word) :
    (encoderOperand signed w x).toNat < 2 ^ w.bits := by
  cases w with
  | w32 =>
    have hlow : ∀ y : BitVec 32, (y.setWidth 64).toNat < 2 ^ 32 := fun y => by
      have := y.isLt
      rw [BitVec.toNat_setWidth]
      omega
    cases signed
    · exact hlow _
    · exact hlow _
  | w64 => exact (encoderOperand signed .w64 x).isLt

/-- A value of 128 or more after `k` bytes of a W-bit value leaves room for one more byte below MAXB(W). -/
theorem succ_lt_maxBytes_of_room {w : Width} {v k : Nat} (hv : 128 ≤ v) (hroom : v * 2 ^ (7 * k) < 2 ^ w.bits) :
    k + 1 < maxBytes w := by
  have hpow : 2 ^ (7 * k + 7) < 2 ^ w.bits :=
    calc 2 ^ (7 * k + 7) = 128 * 2 ^ (7 * k) := by rw [Nat.pow_add]; omega
      _ ≤ v * 2 ^ (7 * k) := Nat.mul_le_mul_right _ hv
      _ < 2 ^ w.bits := hroom
  have hexp : 7 * k + 7 < w.bits := (Nat.pow_lt_pow_iff_right (by decide)).1 hpow
  cases w
  · simp only [Width.bits, maxBytes] at *
    omega
  · simp only [Width.bits, maxBytes] at *
    omega

/-- Shifting the emitted group out of the value keeps it within what is left of the width. -/
theorem shifted_room {v k n : Nat} (hroom : v * 2 ^ (7 * k) < n) : v / 128 * 2 ^ (7 * (k + 1)) < n :=
  calc v / 128 * 2 ^ (7 * (k + 1)) = v / 128 * 128 * 2 ^ (7 * k) := by rw [Nat.mul_add, Nat.pow_add]; ring
    _ ≤ v * 2 ^ (7 * k) := Nat.mul_le_mul_right _ (Nat.div_mul_le_self v 128)
    _ < n := hroom

theorem Encoder.inv_reset : Encoder.reset.Inv := by decide

/-- OVR is free in the encoder's invariant. -/
theorem Encoder.Inv.setOvr {d : Encoder} (h : d.Inv) (o : Bool) :
    ({ d with ctl := { d.ctl with ovr := o } } : Encoder).Inv := h

theorem Encoder.Inv.illegal {d : Encoder} (h : d.Inv) (hidle : d.ctl.busy = false) :
    ({ d with ctl := d.ctl.illegal } : Encoder).Inv := by
  obtain ⟨-, -, -, hwork, -, -, -, -, hwf⟩ := h
  simp [Encoder.Inv, hidle, hwork, hwf]

theorem Encoder.Inv.accept {d : Encoder} (h : d.Inv) (signed : Bool) (w : Width) (buffer : Bool) (x : Word) :
    (d.accept signed w buffer x).Inv := by
  obtain ⟨-, -, -, -, -, -, -, -, hwf⟩ := h
  have hwork := encoderOperand_lt signed w x
  have hmax := maxBytes_pos w
  cases buffer
  · simp [Encoder.Inv, Encoder.accept, hwork, hmax, hwf]
  · simp [Encoder.Inv, Encoder.accept, hwork, hmax, memWf_nil]

theorem Encoder.Inv.command {d : Encoder} (h : d.Inv) (c : Decoded) (x : Word) : (d.command c x).Inv := by
  match c with
  | .legal i =>
    simp only [Encoder.command]
    split
    · exact h
    · split
      · exact h.setOvr true
      · exact h.accept i.signed i.width i.buffer x
  | .illegalCmd .enc =>
    simp only [Encoder.command]
    split
    · exact h.setOvr true
    · next hb => exact h.illegal (by simpa using hb)
  | .illegalCmd .dec => exact h

theorem Encoder.Inv.store {d : Encoder} (h : d.Inv) (r : HostReg) (v : Word) : (d.store r v).Inv := by
  unfold Encoder.store
  split
  · rw [Control.statusWrite_eq]
    exact h.setOvr _
  · exact h

/-- A busy encoder advances within its invariant, once OBUF holds a canonical `m` with nothing past the byte just counted. -/
theorem Encoder.Inv.advance {d : Encoder} (h : d.Inv) (hb : d.ctl.busy = true) (m : Mem) (hwf : memWf m = true)
    (hm : d.ctl.buffer = true → ∀ c ∈ m, c.1 < d.ctl.cnt.toNat + 1) :
    (encoderAdvance { d with obuf := m }).Inv := by
  obtain ⟨hbusy, hdone, herr, hwork, -, hcnt, hroom, -, -⟩ := h
  have hsucc := Control.count_cnt_toNat (hcnt hb)
  unfold encoderAdvance
  split
  · next hmore =>
    have hv : 128 ≤ d.work.toNat := (moreBits_iff _).1 hmore
    have hshift : (d.work >>> 7).toNat = d.work.toNat / 128 := by
      rw [BitVec.toNat_ushiftRight, Nat.shiftRight_eq_div_pow]
    have hlt := succ_lt_maxBytes_of_room hv (hroom hb)
    refine ⟨hbusy, hdone, herr, ?_, ?_, ?_, ?_, ?_, hwf⟩
    · change (d.work >>> 7).toNat < _
      rw [hshift]
      exact Nat.lt_of_le_of_lt (Nat.div_le_self _ _) hwork
    · change d.ctl.count.cnt.toNat ≤ _
      rw [hsucc]
      exact hlt.le
    · intro _
      change d.ctl.count.cnt.toNat < _
      rw [hsucc]
      exact hlt
    · intro _
      change (d.work >>> 7).toNat * 2 ^ (7 * d.ctl.count.cnt.toNat) < _
      rw [hsucc, hshift]
      exact shifted_room (hroom hb)
    · intro _ hbuf
      change ∀ c ∈ m, c.1 < d.ctl.count.cnt.toNat
      rw [hsucc]
      exact hm hbuf
  · have hle : d.ctl.count.cnt.toNat ≤ maxBytes d.ctl.width := hsucc ▸ hcnt hb
    simpa [Encoder.Inv, hwf, hwork] using hle

theorem Encoder.Inv.emit {d : Encoder} (h : d.Inv) (hb : d.ctl.busy = true) : d.emit.Inv := by
  have ⟨_, _, _, _, _, _, _, hcells, hwf⟩ := h
  unfold Encoder.emit
  split
  · next hbuf =>
    refine h.advance hb _ (memWf_writeByte _ _ hwf) fun _ c hc => ?_
    rcases mem_writeByte hc with hold | hnew
    · exact Nat.lt_succ_of_lt (hcells hb hbuf c hold)
    · exact Nat.lt_succ_of_le hnew.le
  · next hbuf => exact h.advance hb _ hwf fun hbuf' => absurd hbuf' hbuf

theorem Encoder.Inv.after {d : Encoder} (h : d.Inv) (e : Event) (x : Word) : (d.after e x).Inv := by
  cases e with
  | hostWrite n v =>
    simp only [Encoder.after]
    split
    · exact h.command _ x
    · exact h.store _ v
  | encoder a =>
    simp only [Encoder.after, Encoder.turn]
    split
    · next hon => exact h.emit (Bool.and_eq_true_iff.1 hon).1
    · exact h
  | reset => exact Encoder.inv_reset
  | hostRead | hostPartial | decoder => exact h

/-! ### The decoder -/

theorem Decoder.inv_reset : Decoder.reset.Inv := by decide

/-- OVR is free in the decoder's invariant. -/
theorem Decoder.Inv.setOvr {d : Decoder} (h : d.Inv) (o : Bool) :
    ({ d with ctl := { d.ctl with ovr := o } } : Decoder).Inv := h

theorem Decoder.Inv.illegal {d : Decoder} (h : d.Inv) (hidle : d.ctl.busy = false) :
    ({ d with ctl := d.ctl.illegal } : Decoder).Inv := by
  obtain ⟨-, -, -, hoff, hoff7, -, -, -, -, hwf⟩ := h
  simp [Decoder.Inv, hidle, hoff, hoff7, hwf]

theorem Decoder.Inv.init {d : Decoder} (h : d.Inv) (signed : Bool) (w : Width) (buffer : Bool) :
    (decoderInit signed w buffer d).Inv := by
  obtain ⟨-, -, -, -, -, -, -, -, -, hwf⟩ := h
  simp [Decoder.Inv, maxBytes_pos w, hwf]

theorem Decoder.Inv.command {d : Decoder} (h : d.Inv) (c : Decoded) : (d.command c).Inv := by
  match c with
  | .legal i =>
    simp only [Decoder.command]
    split
    · exact h
    · split
      · exact h.setOvr true
      · exact h.init i.signed i.width i.buffer
  | .illegalCmd .dec =>
    simp only [Decoder.command]
    split
    · exact h.setOvr true
    · next hb => exact h.illegal (by simpa using hb)
  | .illegalCmd .enc => exact h

/-- An idle decoder's input registers are free in its invariant, up to the canonical form of IBUF. -/
theorem Decoder.Inv.setInput {d : Decoder} (h : d.Inv) (hidle : d.ctl.busy = false) {m : Mem} (hm : memWf m = true)
    (l : BitVec 4) : ({ d with ibuf := m, ilen := l } : Decoder).Inv := by
  obtain ⟨hbusy, hdone, hcnt, hoff, hoff7, hlt, hpos, hacc, -, -⟩ := h
  exact ⟨hbusy, hdone, hcnt, hoff, hoff7, hlt, hpos, hacc, fun hb => by simp [hidle] at hb, hm⟩

/-- Every ending of a busy decoder's operation keeps what the invariant says of an idle one. -/
theorem Decoder.Inv.complete {d : Decoder} (h : d.Inv) (e : ErrCode) {c : Control} (hw : c.width = d.ctl.width)
    (hc : c.cnt.toNat ≤ maxBytes d.ctl.width) (r : Word) :
    ({ d with ctl := c.complete e, result := r } : Decoder).Inv := by
  obtain ⟨-, -, -, hoff, hoff7, -, -, -, -, hwf⟩ := h
  simp [Decoder.Inv, hw, hc, hoff, hoff7, hwf]

/-- One more payload group adds 7 bits to the accumulator and keeps it within the payload width. -/
theorem accumulate_lt {w : Width} {acc : Word} {off : BitVec 7} {k : Nat} (x : Byte) (hoff : off.toNat = 7 * k)
    (hacc : acc.toNat < 2 ^ (7 * k)) :
    (accumulate w acc off x).toNat < 2 ^ w.bits ∧ (accumulate w acc off x).toNat < 2 ^ (7 * (k + 1)) := by
  rw [accumulate_toNat, hoff]
  have hgroup : (x.toNat % 128) <<< (7 * k) < 2 ^ (7 * (k + 1)) :=
    calc (x.toNat % 128) <<< (7 * k) = x.toNat % 128 * 2 ^ (7 * k) := Nat.shiftLeft_eq _ _
      _ < 128 * 2 ^ (7 * k) := Nat.mul_lt_mul_of_pos_right (Nat.mod_lt _ (by decide)) (Nat.two_pow_pos _)
      _ = 2 ^ (7 * (k + 1)) := by rw [Nat.mul_add, Nat.pow_add]; omega
  have hold : acc.toNat < 2 ^ (7 * (k + 1)) := hacc.trans (Nat.pow_lt_pow_right (by decide) (by omega))
  exact ⟨Nat.mod_lt _ (Nat.two_pow_pos _), (Nat.mod_le _ _).trans_lt (Nat.or_lt_two_pow hold hgroup)⟩

theorem Decoder.Inv.continueInput {d : Decoder} (h : d.Inv) (hb : d.ctl.busy = true) (x : Byte)
    (hne : d.ctl.count.cnt.toNat ≠ maxBytes d.ctl.width)
    (hlen : d.ctl.buffer = true → d.ctl.cnt.toNat + 1 < effectiveLen d.ilen) :
    (continueInput (countInput d) x).Inv := by
  obtain ⟨hbusy, hdone, -, -, -, hcnt, hoff, hacc, -, hwf⟩ := h
  have hsucc := Control.count_cnt_toNat (hcnt hb)
  have hmax := maxBytes_le_ten d.ctl.width
  have hlt : d.ctl.cnt.toNat + 1 < maxBytes d.ctl.width := by
    have := hcnt hb
    omega
  have hoff' : (d.off + 7#7).toNat = 7 * (d.ctl.cnt.toNat + 1) := by
    have := hoff hb
    rw [BitVec.toNat_add, BitVec.toNat_ofNat]
    omega
  obtain ⟨haccW, haccK⟩ := accumulate_lt (w := d.ctl.width) x (hoff hb) (hacc hb).2
  rw [← hsucc] at hlt hoff' haccK hlen
  exact ⟨hbusy, hdone, hlt.le, by rw [continueInput_off, countInput_off]; omega,
    by rw [continueInput_off, countInput_off]; omega, fun _ => hlt, fun _ => hoff', fun _ => ⟨haccW, haccK⟩,
    fun _ hbuf => .inr (hlen hbuf), hwf⟩

theorem Decoder.Inv.consume {d : Decoder} (h : d.Inv) (hb : d.ctl.busy = true) (x : Byte) (last : Bool)
    (hlen : d.ctl.buffer = true → last = false → d.ctl.cnt.toNat + 1 < effectiveLen d.ilen) : (d.consume x last).Inv := by
  have ⟨_, _, _, _, _, hcnt, _⟩ := h
  have hcount : d.ctl.count.cnt.toNat ≤ maxBytes d.ctl.width := Control.count_cnt_toNat (hcnt hb) ▸ hcnt hb
  rcases d.consume_cases x last with ⟨-, -, hd⟩ | ⟨-, hne, hlast, hd⟩ | ⟨-, hd⟩
  · rw [hd]
    exact h.complete .malformedVarint (c := d.ctl.count) rfl hcount d.result
  · rw [hd]
    exact h.continueInput hb x hne fun hbuf => hlen hbuf hlast
  · rw [hd]
    exact h.complete .none (c := d.ctl.count) rfl hcount _

theorem Decoder.Inv.fail {d : Decoder} (h : d.Inv) (e : ErrCode) : (d.fail e).Inv := by
  have ⟨_, _, hcnt, _⟩ := h
  exact h.complete e rfl hcnt d.result

theorem Decoder.Inv.turn {d : Decoder} (h : d.Inv) (a : Bool) (r : Response) : (d.turn a r).Inv := by
  unfold Decoder.turn
  split
  · next htake =>
    simp only [Decoder.takesResponse, Bool.and_eq_true, Bool.not_eq_true'] at htake
    obtain ⟨⟨hb, hstream⟩, -⟩ := htake
    cases r with
    | eoi => exact h.fail .endOfInput
    | byte x => exact h.consume hb x false fun hbuf => by simp [hstream] at hbuf
  · split
    · next hbuf =>
      unfold Decoder.bufferStep
      split
      · exact h.fail .endOfInput
      · next hk =>
        refine h.consume (Bool.and_eq_true_iff.1 hbuf).1 _ _ fun _ hlast => ?_
        have hne := of_decide_eq_false hlast
        omega
    · exact h

theorem Decoder.Inv.store {d : Decoder} (h : d.Inv) (r : HostReg) (v : Word)
    (hidle : r.isDecoderInput = true → d.ctl.busy = false) : (d.store r v).Inv := by
  have ⟨_, _, _, _, _, _, _, _, _, hwf⟩ := h
  cases r with
  | decStatus =>
    simp only [Decoder.store, Control.statusWrite_eq]
    exact h.setOvr _
  | decIbufLo => exact h.setInput (hidle rfl) (memWf_unpackBytes _ v hwf) _
  | decIbufHi => exact h.setInput (hidle rfl) (memWf_unpackBytes _ v hwf) _
  | decIlen => exact h.setInput (hidle rfl) hwf _
  | cmd | encVal | encStatus | encLen | encObufLo | encObufHi | decLen | decResult | reserved => exact h

theorem Decoder.Inv.after {d : Decoder} (h : d.Inv) (e : Event) (r : Response)
    (hidle : ∀ n v, e = .hostWrite n v → (hostReg n).isDecoderInput = true → d.ctl.busy = false) : (d.after e r).Inv := by
  cases e with
  | hostWrite n v =>
    simp only [Decoder.after]
    split
    · exact h.command _
    · exact h.store _ v (hidle n v rfl)
  | decoder a => exact h.turn a r
  | reset => exact Decoder.inv_reset
  | hostRead | hostPartial | encoder => exact h

/-! ### The machine -/

/-- Every agent step keeps the invariant. -/
theorem runEvent_inv {e : Event} {s t : State} (h : s.Inv) (hrun : runEvent e s = .next t) : t.Inv := by
  have hstep := runEvent_agentStep hrun
  constructor
  · rw [hstep.enc]
    exact h.1.after e s.encVal
  · rw [hstep.dec]
    exact h.2.after e _ hstep.noHazard

/-- Taking the next agent step off the agenda leaves the units alone. -/
theorem nextEvent_units (s : State) : (nextEvent s).2.enc = s.enc ∧ (nextEvent s).2.dec = s.dec := by
  unfold nextEvent
  split <;> exact ⟨rfl, rfl⟩

theorem step_inv {s t : State} (h : s.Inv) (hstep : step s = .next t) : t.Inv := by
  obtain ⟨henc, hdec⟩ := nextEvent_units s
  refine runEvent_inv ?_ hstep
  rw [State.Inv, henc, hdec]
  exact h

end Sys2Proof.Machine
end

section
/-! What one unit cannot see of the other, and what changes DEC_RESULT. -/

namespace Sys2Proof.Machine

/-- What SourceRead answers and leaves depends on the source alone. -/
theorem sourceRead_congr {s s' : State} (hsrc : s.source = s'.source) (hpos : s.sourcePos = s'.sourcePos) :
    (sourceRead s).1 = (sourceRead s').1 ∧ (sourceRead s).2.source = (sourceRead s').2.source
      ∧ (sourceRead s).2.sourcePos = (sourceRead s').2.sourcePos := by
  unfold sourceRead
  rw [hsrc, hpos]
  cases s'.source with
  | nil => exact ⟨rfl, rfl, rfl⟩
  | cons r rest => exact ⟨rfl, rfl, rfl⟩

/-- What an agent step leaves of the source depends on the decoder and the source alone. -/
theorem sourceAfter_congr {s s' : State} (e : Event) (hdec : s.dec = s'.dec) (hsrc : s.source = s'.source)
    (hpos : s.sourcePos = s'.sourcePos) :
    (sourceAfter e s).source = (sourceAfter e s').source
      ∧ (sourceAfter e s).sourcePos = (sourceAfter e s').sourcePos := by
  cases e with
  | decoder a =>
    simp only [sourceAfter, hdec]
    split
    · exact (sourceRead_congr hsrc hpos).2
    · exact ⟨hsrc, hpos⟩
  | hostRead | hostWrite | hostPartial | encoder | reset => exact ⟨hsrc, hpos⟩

theorem runEvents_encoder_congr {es : List Event} {s s' t t' : State} (h : runEvents es s = .next t)
    (h' : runEvents es s' = .next t') (henc : s.enc = s'.enc) (hval : s.encVal = s'.encVal) :
    t.enc = t'.enc ∧ t.encVal = t'.encVal := by
  induction es generalizing s s' with
  | nil =>
    obtain rfl := Host.Outcome.next.inj h
    obtain rfl := Host.Outcome.next.inj h'
    exact ⟨henc, hval⟩
  | cons e es ih =>
    obtain ⟨u, hu, hrest⟩ := runEvents_cons_next.1 h
    obtain ⟨u', hu', hrest'⟩ := runEvents_cons_next.1 h'
    have hs := runEvent_agentStep hu
    have hs' := runEvent_agentStep hu'
    apply ih hrest hrest'
    · rw [hs.enc, hs'.enc, henc, hval]
    · rw [hs.encVal, hs'.encVal, hval]

theorem runEvents_decoder_congr {es : List Event} {s s' t t' : State} (h : runEvents es s = .next t)
    (h' : runEvents es s' = .next t') (hdec : s.dec = s'.dec) (hsrc : s.source = s'.source)
    (hpos : s.sourcePos = s'.sourcePos) :
    t.dec = t'.dec ∧ t.source = t'.source ∧ t.sourcePos = t'.sourcePos := by
  induction es generalizing s s' with
  | nil =>
    obtain rfl := Host.Outcome.next.inj h
    obtain rfl := Host.Outcome.next.inj h'
    exact ⟨hdec, hsrc, hpos⟩
  | cons e es ih =>
    obtain ⟨u, hu, hrest⟩ := runEvents_cons_next.1 h
    obtain ⟨u', hu', hrest'⟩ := runEvents_cons_next.1 h'
    have hs := runEvent_agentStep hu
    have hs' := runEvent_agentStep hu'
    obtain ⟨hsrc', hpos'⟩ := sourceAfter_congr e hdec hsrc hpos
    apply ih hrest hrest'
    · rw [hs.dec, hs'.dec, hdec, (sourceRead_congr hsrc hpos).1]
    · rw [hs.source, hs'.source, hsrc']
    · rw [hs.sourcePos, hs'.sourcePos, hpos']

/-! ### DEC_RESULT -/

theorem Decoder.command_result (c : Decoded) (d : Decoder) : (d.command c).result = d.result := by
  match c with
  | .legal i =>
    simp only [Decoder.command]
    split
    · rfl
    · split <;> rfl
  | .illegalCmd .dec => rfl
  | .illegalCmd .enc => rfl

theorem Decoder.store_result (r : HostReg) (v : Word) (d : Decoder) : (d.store r v).result = d.result := by
  cases r <;> rfl

/-- A byte changes DEC_RESULT only as the terminator of a successful decode. -/
theorem Decoder.consume_result {x : Byte} {last : Bool} {d : Decoder} (h : (d.consume x last).result ≠ d.result) :
    (d.consume x last).ctl = d.ctl.count.complete .none := by
  rcases d.consume_cases x last with ⟨-, -, hd⟩ | ⟨-, -, -, hd⟩ | ⟨-, hd⟩
  · exact absurd (by rw [hd]) h
  · exact absurd (by rw [hd]; rfl) h
  · rw [hd]
    rfl

/-- A turn changes DEC_RESULT only by a successful completion. -/
theorem Decoder.turn_result {a : Bool} {r : Response} {d : Decoder} (h : (d.turn a r).result ≠ d.result) :
    d.ctl.busy = true ∧ (d.turn a r).ctl = d.ctl.count.complete .none := by
  revert h
  unfold Decoder.turn
  split
  · next htake =>
    intro h
    simp only [Decoder.takesResponse, Bool.and_eq_true] at htake
    cases r with
    | eoi => exact absurd rfl h
    | byte x => exact ⟨htake.1.1, Decoder.consume_result h⟩
  · split
    · next hbuf =>
      unfold Decoder.bufferStep
      split
      · exact absurd rfl
      · exact fun h => ⟨(Bool.and_eq_true_iff.1 hbuf).1, Decoder.consume_result h⟩
    · exact absurd rfl

end Sys2Proof.Machine
end

section
/-! The host registers: the STATUS word bit by bit, the map of register numbers, packed registers. -/

namespace Sys2Proof.Machine

/-- The STATUS word bit by bit (10_state R27, 60_exceptions R200). -/
theorem Control.status_getLsbD (c : Control) (k : Nat) :
    c.status.getLsbD k =
      if k < 1 then c.busy else if k < 2 then c.done else if k < 4 then c.err.code.getLsbD (k - 2)
      else decide (k = 4) && c.ovr := by
  simp only [Control.status, BitVec.getLsbD_setWidth, BitVec.getLsbD_append, BitVec.getLsbD_ofBool]
  match k with
  | 0 | 1 | 2 | 3 | 4 => simp
  | k + 5 => simp

theorem Control.status_err (c : Control) : c.status.extractLsb' 2 2 = c.err.code := by
  apply BitVec.eq_of_getLsbD_eq
  intro i hi
  have hfield : ¬ 2 + i < 1 ∧ ¬ 2 + i < 2 ∧ 2 + i < 4 := by omega
  rw [BitVec.getLsbD_extractLsb', c.status_getLsbD]
  simp [hi, hfield]
theorem hostReg_reserved : ∀ n : RegNo, n.toNat = 6 ∨ n.toNat = 7 ∨ 14 ≤ n.toNat → hostReg n = .reserved := by
  decide

/-- The registers and reserved numbers that ignore every write (10_state R24, R37). -/
def HostReg.isReadOnly : HostReg → Bool
  | .encLen | .encObufLo | .encObufHi | .decLen | .decResult | .reserved => true
  | _ => false

theorem hostReg_isReadOnly : ∀ n : RegNo, (3 ≤ n.toNat ∧ n.toNat ≤ 7) ∨ 12 ≤ n.toNat →
    (hostReg n).isReadOnly = true := by
  decide

theorem writeReg_readOnly {n : RegNo} (h : (hostReg n).isReadOnly = true) (v : Word) (s : State) :
    writeReg n v s = .next s := by
  unfold writeReg storeReg
  cases hr : hostReg n <;> rw [hr] at h
  case encLen | encObufLo | encObufHi | decLen | decResult | reserved => rfl
  all_goals exact absurd h Bool.false_ne_true

/-- A register's low bytes written to a buffer and packed again are those bytes (20_memory R63). -/
theorem packBytes_unpackBytes {m : Mem} {base n : Nat} (v : Word) (hm : memWf m = true) (hb : base + n ≤ 10) :
    packBytes (unpackBytes m base n v) base n = (v.setWidth (8 * n)).setWidth 64 := by
  apply BitVec.eq_of_getLsbD_eq
  intro j hj
  rw [getLsbD_packBytes n _ base j hj]
  by_cases hjn : j < 8 * n
  · rw [readByte_unpackBytes_inside n v hm hb (by omega)]
    have hsplit : 8 * (j / 8) + j % 8 = j := by omega
    have hlow : j % 8 < 8 := by omega
    simp [hjn, hj, hlow, hsplit]
  · simp [hjn]

/-- A block at its reset values reads 0 at every register number (10_state R42). -/
theorem readReg_reset (n : RegNo) {s : State} (henc : s.enc = Encoder.reset) (hdec : s.dec = Decoder.reset)
    (hval : s.encVal = 0#64) : readReg n s = 0#64 := by
  unfold readReg
  rw [henc, hdec, hval]
  cases hostReg n <;> rfl

end Sys2Proof.Machine
end

section
/-! The obligations of 10_state. -/

open Sys2Proof Sys2Proof.Machine

/-- Settles O51: each unit's invariant is kept by what an agent step makes of that unit. -/
theorem invariantKept : Obligations.InvariantKept := by
  unfold Obligations.InvariantKept
  exact fun _ _ h hstep => step_inv h hstep

/-- Settles O55: what an agent step makes of a unit is a function of that unit, ENC_VAL or the source, and the step. -/
theorem unitsIndependent : Obligations.UnitsIndependent := by
  unfold Obligations.UnitsIndependent
  exact fun _ _ _ _ _ h h' =>
    ⟨runEvents_encoder_congr h h', runEvents_decoder_congr h h'⟩

/-- Settles O18, by the laws of `unpackBytes` at the indexes of each register. -/
theorem decoderInputWrites : Obligations.DecoderInputWrites := by
  unfold Obligations.DecoderInputWrites
  intro v s hidle hwf
  have hwrite : ∀ d, writeDecoderInput d s = .next { s with dec := d } := fun d => by
    simp [writeDecoderInput, hidle]
  refine ⟨⟨unpackBytes s.dec.ibuf 0 8 v, hwrite _, memWf_unpackBytes 8 v hwf, fun k hk => ?_, fun k hk => ?_, ?_⟩,
    ⟨unpackBytes s.dec.ibuf 8 2 v, hwrite _, memWf_unpackBytes 2 v hwf, ?_, ?_, fun k hk => ?_, ?_⟩, ?_⟩
  · simpa using readByte_unpackBytes_inside 8 (base := 0) v hwf (by decide) hk
  · exact readByte_unpackBytes_outside 8 v (.inr (by omega))
  · exact (packBytes_unpackBytes v hwf (by decide)).trans (by simp)
  · exact readByte_unpackBytes_inside 2 (base := 8) (k := 0) v hwf (by decide) (by decide)
  · exact readByte_unpackBytes_inside 2 (base := 8) (k := 1) v hwf (by decide) (by decide)
  · exact readByte_unpackBytes_outside 2 v (by omega)
  · have hback := packBytes_unpackBytes (n := 2) (base := 8) v hwf (by decide)
    change (packBytes (unpackBytes s.dec.ibuf 8 2 v) 8 2).toNat = v.toNat % 2 ^ 16
    rw [hback, BitVec.toNat_setWidth, BitVec.toNat_setWidth]
    omega
  · rw [BitVec.setWidth_eq_extractLsb' (by decide)]
    exact hwrite _

/-- Settles O57: only reset and a successful completion reach DEC_RESULT. -/
theorem resultWrittenOnlyBySuccess : Obligations.ResultWrittenOnlyBySuccess := by
  unfold Obligations.ResultWrittenOnlyBySuccess
  intro e s t hrun hne
  rw [(runEvent_agentStep hrun).dec] at hne ⊢
  cases e with
  | hostWrite n v =>
    simp only [Decoder.after] at hne
    split at hne
    · exact absurd (Decoder.command_result _ _) hne
    · exact absurd (Decoder.store_result _ v _) hne
  | decoder a =>
    obtain ⟨hbusy, hctl⟩ := Decoder.turn_result hne
    simp only [Decoder.after, hctl]
    exact .inr ⟨a, rfl, hbusy, rfl, rfl, rfl⟩
  | reset => exact .inl rfl
  | hostRead | hostPartial | encoder => exact absurd rfl hne

/-- Settles O13, from the register map and the width of the 4-bit counters. -/
theorem hostReads : Obligations.HostReads := by
  unfold Obligations.HostReads
  intro s
  have hzext : ∀ c : BitVec 4, (c.setWidth 64).toNat = c.toNat := fun c => BitVec.toNat_setWidth_of_le (by decide)
  refine ⟨rfl, rfl, hzext _, hzext _, hzext _, rfl, fun n hn => ?_, fun _ => rfl⟩
  rw [readReg, hostReg_reserved n hn]

/-- Settles O14: both STATUS registers read the one STATUS word of their unit's control part. -/
theorem statusWordFormat : Obligations.StatusWordFormat := by
  unfold Obligations.StatusWordFormat
  intro s n c hn
  have hread : readReg n s = c.status := by
    rcases hn with ⟨rfl, rfl⟩ | ⟨rfl, rfl⟩
    · rfl
    · rfl
  rw [hread]
  refine ⟨c.status_getLsbD 0, c.status_getLsbD 1, ?_, c.status_getLsbD 4, fun k hk => ?_⟩
  · rw [c.status_err]
    cases c.err <;> rfl
  · have habove : ¬ k < 1 ∧ ¬ k < 2 ∧ ¬ k < 4 ∧ ¬ k = 4 := by omega
    rw [c.status_getLsbD]
    simp [habove]

/-- Settles O15: a STATUS write is the one update of OVR. -/
theorem statusWriteClearsOvr : Obligations.StatusWriteClearsOvr := by
  unfold Obligations.StatusWriteClearsOvr
  intro v s
  rw [← Control.statusWrite_eq, ← Control.statusWrite_eq]
  exact ⟨rfl, rfl⟩

/-- Settles O16, by the kind of register each of these numbers selects. -/
theorem readOnlyWritesIgnored : Obligations.ReadOnlyWritesIgnored := by
  unfold Obligations.ReadOnlyWritesIgnored
  exact fun n v s hn => writeReg_readOnly (hostReg_isReadOnly n hn) v s

/-- Settles O17: the write and the read of ENC_VAL compute. -/
theorem encValWrite : Obligations.EncValWrite := by
  unfold Obligations.EncValWrite
  exact fun _ _ => ⟨rfl, rfl⟩

/-- Settles O23: a state whose block is at its reset values reads 0 at every register number. -/
theorem resetReadsZero : Obligations.ResetReadsZero := by
  unfold Obligations.ResetReadsZero
  refine ⟨fun s t n h => ?_, fun n => readReg_reset n rfl rfl rfl⟩
  have hstep := runEvent_agentStep h
  exact readReg_reset n hstep.enc hstep.dec hstep.encVal

/-- Settles O50, unit by unit. -/
theorem invariantAtReset : Obligations.InvariantAtReset := by
  unfold Obligations.InvariantAtReset
  exact ⟨Encoder.inv_reset, Decoder.inv_reset⟩

end

section
/-! What an agent step leaves of the sink, the source and the agenda, and what it does to a unit that it spares. -/

namespace Sys2Proof.Machine

/-! ### The sink -/

/-- The bytes an agent step gives to the sink, from the encoder alone (40_encoder R107). -/
def Encoder.delivered (e : Event) (d : Encoder) : List Byte :=
  match e with
  | .encoder true => if d.ctl.busy && !d.ctl.buffer then [outByte d.work] else []
  | _ => []

theorem encoderTurn_sink {a : Bool} {s t : State} (h : encoderTurn a s = .next t) :
    t.sink = s.sink ++ s.enc.delivered (.encoder a) := by
  rcases encoderTurn_next h with ⟨hoff, rfl⟩ | ⟨hb, hm, rfl, rfl⟩ | ⟨hb, hm, rfl⟩
  · rcases hoff with hb | ⟨_, rfl⟩
    · cases a <;> simp [Encoder.delivered, hb]
    · simp [Encoder.delivered]
  · simp [Encoder.delivered, hb, hm]
  · cases a <;> simp [Encoder.delivered, hm]

theorem writeReg_sink {n : RegNo} {v : Word} {s t : State} (h : writeReg n v s = .next t) : t.sink = s.sink := by
  unfold writeReg at h
  split at h
  · rw [cmdWrite_eq] at h
    exact Host.Outcome.next.inj h ▸ rfl
  · rw [storeReg_next h]

/-- The sink after an agent step. -/
theorem runEvent_sink {e : Event} {s t : State} (h : runEvent e s = .next t) :
    t.sink = s.sink ++ s.enc.delivered e := by
  cases e with
  | encoder a => exact encoderTurn_sink h
  | hostWrite n v => rw [writeReg_sink h]; exact (List.append_nil _).symm
  | decoder a =>
    rw [decoderTurn_frame h, sourceAfter_frame]
    exact (List.append_nil _).symm
  | hostPartial p => nomatch h
  | hostRead | reset =>
    obtain rfl := Host.Outcome.next.inj h
    exact (List.append_nil _).symm

/-- An agent step gives the sink no byte, or one byte in an accepted turn of a busy stream-mode encoder. -/
theorem Encoder.delivered_cases (e : Event) (d : Encoder) :
    d.delivered e = [] ∨
    (e = .encoder true ∧ d.ctl.busy = true ∧ d.ctl.buffer = false ∧ d.delivered e = [outByte d.work]) := by
  unfold Encoder.delivered
  split
  · by_cases hon : d.ctl.busy && !d.ctl.buffer
    · have ⟨hb, hm⟩ := Bool.and_eq_true_iff.1 hon
      exact .inr ⟨rfl, hb, by simpa using hm, if_pos hon⟩
    · exact .inl (if_neg hon)
  · exact .inl rfl

/-! ### The source -/

/-- An agent step leaves the source alone, or takes one response in an answered turn of a busy stream-mode decoder. -/
theorem sourceAfter_cases (e : Event) (s : State) :
    sourceAfter e s = s ∨
    (e = .decoder true ∧ s.dec.ctl.busy = true ∧ s.dec.ctl.buffer = false ∧ sourceAfter e s = (sourceRead s).2) := by
  cases e with
  | decoder a =>
    by_cases htake : s.dec.takesResponse a = true
    · have heq : sourceAfter (.decoder a) s = (sourceRead s).2 := if_pos htake
      simp only [Decoder.takesResponse, Bool.and_eq_true, Bool.not_eq_true'] at htake
      obtain ⟨⟨hb, hm⟩, rfl⟩ := htake
      exact .inr ⟨rfl, hb, hm, heq⟩
    · exact .inl (if_neg htake)
  | hostRead | hostWrite | hostPartial | encoder | reset => exact .inl rfl

/-! ### The agenda -/

theorem writeDecoderInput_agenda {d : Decoder} {s t : State} (h : writeDecoderInput d s = .next t) (l : List Event) :
    writeDecoderInput d { s with agenda := l } = .next { t with agenda := l } := by
  obtain ⟨hidle, rfl⟩ := writeDecoderInput_next h
  simp [writeDecoderInput, hidle]

theorem writeReg_agenda {n : RegNo} {v : Word} {s t : State} (h : writeReg n v s = .next t) (l : List Event) :
    writeReg n v { s with agenda := l } = .next { t with agenda := l } := by
  unfold writeReg storeReg at h ⊢
  cases hr : hostReg n <;> rw [hr] at h
  case cmd =>
    rw [if_pos rfl, cmdWrite_eq] at h ⊢
    exact Host.Outcome.next.inj h ▸ rfl
  case decIbufLo | decIbufHi | decIlen => exact writeDecoderInput_agenda h l
  all_goals exact Host.Outcome.next.inj h ▸ rfl

theorem encoderTurn_agenda {a : Bool} {s t : State} (h : encoderTurn a s = .next t) (l : List Event) :
    encoderTurn a { s with agenda := l } = .next { t with agenda := l } := by
  obtain ⟨t', h'⟩ := encoderTurn_total a { s with agenda := l }
  rw [h', encoderTurn_frame h', encoderTurn_frame h, encoderTurn_sink h', encoderTurn_sink h]

theorem decoderTurn_agenda {a : Bool} {s t : State} (h : decoderTurn a s = .next t) (l : List Event) :
    decoderTurn a { s with agenda := l } = .next { t with agenda := l } := by
  obtain ⟨t', h'⟩ := decoderTurn_total a { s with agenda := l }
  have hread := sourceRead_congr (s := { s with agenda := l }) (s' := s) rfl rfl
  have hafter := sourceAfter_congr (s := { s with agenda := l }) (s' := s) (.decoder a) rfl rfl rfl
  rw [h', decoderTurn_frame h', decoderTurn_frame h, sourceAfter_frame, sourceAfter_frame _ s, hread.1, hafter.1, hafter.2]

/-- An agent step neither reads nor changes the agenda (log entry 1). -/
theorem runEvent_agenda {e : Event} {s t : State} (h : runEvent e s = .next t) (l : List Event) :
    runEvent e { s with agenda := l } = .next { t with agenda := l } := by
  cases e with
  | hostWrite n v => exact writeReg_agenda h l
  | encoder a => exact encoderTurn_agenda h l
  | decoder a => exact decoderTurn_agenda h l
  | hostPartial p => nomatch h
  | hostRead | reset => exact Host.Outcome.next.inj h ▸ rfl

theorem runEvent_keeps_agenda {e : Event} {s t : State} (h : runEvent e s = .next t) : t.agenda = s.agenda := by
  have hsame := h.symm.trans (runEvent_agenda h s.agenda)
  rw [Host.Outcome.next.inj hsame]

theorem step_of_agenda_cons (e : Event) (l : List Event) (s : State) :
    step { s with agenda := e :: l } = runEvent e { s with agenda := l } := rfl

theorem core_run_succ_of_step {k : Nat} {s u : State} (h : step s = .next u) :
    Sys2Proof.core.run (k + 1) s = Sys2Proof.core.run k u := by
  have hcore : Sys2Proof.core.step s = .next u := h
  simp only [Host.Core.run, hcore]

/-- The machine's run over a placed agenda is the run of the agent steps. -/
theorem core_run_agenda : ∀ (es : List Event) {rest : List Event} {s t : State}, runEvents es s = .next t →
    s.agenda = rest →
      t.agenda = rest ∧ Sys2Proof.core.run es.length { s with agenda := es ++ rest } = .next t
  | [], _, s, t, h, hs => by
    obtain rfl := Host.Outcome.next.inj h
    subst hs
    exact ⟨rfl, rfl⟩
  | e :: es, rest, s, t, h, hs => by
    obtain ⟨u, hu, hrest⟩ := runEvents_cons_next.1 h
    obtain ⟨hagenda, hrun⟩ := core_run_agenda es hrest ((runEvent_keeps_agenda hu).trans hs)
    have hstep := (step_of_agenda_cons e (es ++ rest) s).trans (runEvent_agenda hu _)
    exact ⟨hagenda, (core_run_succ_of_step hstep).trans hrun⟩

/-! ### The agent steps that spare a unit -/

theorem mem_of_lookupWord {v : Word} {i : Instr} : ∀ {table : List (Word × Instr)}, lookupWord v table = some i →
    (v, i) ∈ table
  | (m, j) :: rest, h => by
    unfold lookupWord at h
    split at h
    · next hv =>
      obtain rfl := Option.some.inj h
      exact hv ▸ List.mem_cons_self ..
    · exact List.mem_cons_of_mem _ (mem_of_lookupWord h)

/-- The unit a decoded word belongs to. -/
def decodedUnit : Decoded → UnitId
  | .legal i => i.unit
  | .illegalCmd u => u

/-- The unit of a decoded word is the one its bit 3 names (30_encoding R88). -/
theorem decode_unit (v : Word) : decodedUnit (decode v) = addressedUnit v := by
  have htable : (opcodeMap.all fun p => p.2.unit == addressedUnit p.1) = true := by decide
  unfold decode
  cases hl : lookupWord v opcodeMap with
  | none => rfl
  | some i => exact eq_of_beq (List.all_eq_true.1 htable _ (mem_of_lookupWord hl))

theorem Encoder.command_of_dec {c : Decoded} (h : decodedUnit c = .dec) (x : Word) (d : Encoder) : d.command c x = d := by
  match c with
  | .legal i => exact if_pos h
  | .illegalCmd .dec => rfl

theorem Decoder.command_of_enc {c : Decoded} (h : decodedUnit c = .enc) (d : Decoder) : d.command c = d := by
  match c with
  | .legal i => exact if_pos h
  | .illegalCmd .enc => rfl

/-- A CMD write that spares a unit names the other. -/
theorem addressedUnit_ne_of_spares {u : UnitId} {n : RegNo} {v : Word} (h : sparesUnit u (.hostWrite n v) = true)
    (hr : hostReg n = .cmd) : addressedUnit v ≠ u := by
  intro hu
  have hspare : (!(hostReg n == .cmd && addressedUnit v == u)) = true := h
  rw [hr, hu] at hspare
  simp at hspare

/-- The encoder with another OVR. -/
def Encoder.withOvr (o : Bool) (d : Encoder) : Encoder := { d with ctl := { d.ctl with ovr := o } }

theorem Encoder.store_ovr (r : HostReg) (v : Word) (d : Encoder) : ∃ o, d.store r v = d.withOvr o := by
  cases r with
  | encStatus => exact ⟨_, by rw [Encoder.store, Control.statusWrite_eq]; rfl⟩
  | cmd | encVal | encLen | encObufLo | encObufHi | decIbufLo | decIbufHi | decIlen | decStatus | decLen | decResult
  | reserved => exact ⟨d.ctl.ovr, rfl⟩

/-- An agent step that spares the encoder is one of its turns or changes at most its OVR. -/
theorem Encoder.after_of_spares {e : Event} (h : sparesUnit .enc e = true) (x : Word) (d : Encoder) :
    (∃ a, e = .encoder a ∧ d.after e x = d.turn a) ∨
    ((∀ a, e ≠ .encoder a) ∧ ∃ o, d.after e x = d.withOvr o) := by
  cases e with
  | encoder a => exact .inl ⟨a, rfl, rfl⟩
  | hostWrite n v =>
    refine .inr ⟨nofun, ?_⟩
    by_cases hr : hostReg n = .cmd
    · have hdec : addressedUnit v = .dec := by
        cases hu : addressedUnit v with
        | enc => exact absurd hu (addressedUnit_ne_of_spares h hr)
        | dec => rfl
      have hsame := Encoder.command_of_dec ((decode_unit v).trans hdec) x d
      exact ⟨d.ctl.ovr, (if_pos hr).trans hsame⟩
    · obtain ⟨o, ho⟩ := d.store_ovr (hostReg n) v
      exact ⟨o, (if_neg hr).trans ho⟩
  | reset => exact absurd h Bool.false_ne_true
  | hostRead | hostPartial | decoder => exact .inr ⟨nofun, d.ctl.ovr, rfl⟩

theorem Encoder.turn_idle {d : Encoder} (h : d.ctl.busy = false) (a : Bool) : d.turn a = d := by
  simp [Encoder.turn, h]

/-- The decoder with another OVR and other contents of its input registers, which is all a host write to it can change. -/
def Decoder.withOvrInput (o : Bool) (m : Mem) (l : BitVec 4) (d : Decoder) : Decoder :=
  { d with ctl := { d.ctl with ovr := o }, ibuf := m, ilen := l }

theorem Decoder.store_ovrInput (r : HostReg) (v : Word) (d : Decoder) :
    ∃ o m l, d.store r v = d.withOvrInput o m l := by
  cases r with
  | decStatus => exact ⟨_, _, _, by rw [Decoder.store, Control.statusWrite_eq]; rfl⟩
  | decIbufLo | decIbufHi | decIlen | cmd | encVal | encStatus | encLen | encObufLo | encObufHi | decLen | decResult
  | reserved => exact ⟨d.ctl.ovr, _, _, rfl⟩

/-- An agent step that spares the decoder is one of its turns or changes at most its OVR and its input registers. -/
theorem Decoder.after_of_spares {e : Event} (h : sparesUnit .dec e = true) (r : Response) (d : Decoder) :
    (∃ a, e = .decoder a ∧ d.after e r = d.turn a r) ∨
    ((∀ a, e ≠ .decoder a) ∧ ∃ o m l, d.after e r = d.withOvrInput o m l) := by
  cases e with
  | decoder a => exact .inl ⟨a, rfl, rfl⟩
  | hostWrite n v =>
    refine .inr ⟨nofun, ?_⟩
    by_cases hr : hostReg n = .cmd
    · have henc : addressedUnit v = .enc := by
        cases hu : addressedUnit v with
        | enc => rfl
        | dec => exact absurd hu (addressedUnit_ne_of_spares h hr)
      have hsame := Decoder.command_of_enc ((decode_unit v).trans henc) d
      exact ⟨d.ctl.ovr, d.ibuf, d.ilen, (if_pos hr).trans hsame⟩
    · obtain ⟨o, m, l, hstore⟩ := d.store_ovrInput (hostReg n) v
      exact ⟨o, m, l, (if_neg hr).trans hstore⟩
  | reset => exact absurd h Bool.false_ne_true
  | hostRead | hostPartial | encoder => exact .inr ⟨nofun, d.ctl.ovr, d.ibuf, d.ilen, rfl⟩

theorem Decoder.turn_idle {d : Decoder} (h : d.ctl.busy = false) (a : Bool) (r : Response) : d.turn a r = d := by
  simp [Decoder.turn, Decoder.takesResponse, h]

/-- DONE = 1 says idle where BUSY = 1 says DONE = 0 (10_state R40 (a)). -/
theorem Control.idle_of_done {c : Control} (h : c.busy = true → c.done = false) (hdone : c.done = true) :
    c.busy = false := by
  cases hb : c.busy with
  | false => rfl
  | true => exact absurd (hdone.symm.trans (h hb)) (by decide)

/-- While nothing but sparing steps come, an idle encoder changes at most its OVR. -/
theorem runEvents_enc_idle {es : List Event} {s t : State} (h : runEvents es s = .next t)
    (hspare : ∀ e ∈ es, sparesUnit .enc e = true) (hidle : s.enc.ctl.busy = false) :
    ∃ o, t.enc = s.enc.withOvr o := by
  refine runEvents_keeps (P := fun u => ∃ o, u.enc = s.enc.withOvr o) (fun e u v he hu hrun => ?_) es hspare
    ⟨s.enc.ctl.ovr, rfl⟩ h
  obtain ⟨o, ho⟩ := hu
  rw [(runEvent_agentStep hrun).enc, ho]
  rcases Encoder.after_of_spares he u.encVal (s.enc.withOvr o) with ⟨a, -, heq⟩ | ⟨-, o', heq⟩
  · exact ⟨o, heq.trans (Encoder.turn_idle (d := s.enc.withOvr o) hidle a)⟩
  · exact ⟨o', heq⟩

/-- While nothing but sparing steps come, an idle decoder changes at most its OVR and its input registers. -/
theorem runEvents_dec_idle {es : List Event} {s t : State} (h : runEvents es s = .next t)
    (hspare : ∀ e ∈ es, sparesUnit .dec e = true) (hidle : s.dec.ctl.busy = false) :
    ∃ o m l, t.dec = s.dec.withOvrInput o m l := by
  refine runEvents_keeps (P := fun u => ∃ o m l, u.dec = s.dec.withOvrInput o m l) (fun e u v he hu hrun => ?_) es hspare
    ⟨s.dec.ctl.ovr, s.dec.ibuf, s.dec.ilen, rfl⟩ h
  obtain ⟨o, m, l, hd⟩ := hu
  rw [(runEvent_agentStep hrun).dec, hd]
  rcases Decoder.after_of_spares he (sourceRead u).1 (s.dec.withOvrInput o m l) with ⟨a, -, heq⟩ | ⟨-, o', m', l', heq⟩
  · exact ⟨o, m, l, heq.trans (Decoder.turn_idle (d := s.dec.withOvrInput o m l) hidle a _)⟩
  · exact ⟨o', m', l', heq⟩

end Sys2Proof.Machine
end

section
/-! Bytes packed into a register, by byte and as a bound. -/

namespace Sys2Proof.Machine

/-- A byte of a packed register (20_memory R63). -/
theorem extractLsb'_packBytes {n k : Nat} (m : Mem) (base : Nat) (hk : k < n) (hn : n ≤ 8) :
    (packBytes m base n).extractLsb' (8 * k) 8 = readByte m (base + k) := by
  apply BitVec.eq_of_getLsbD_eq
  intro i hi
  have hbyte : (8 * k + i) / 8 = k := by omega
  have hbit : (8 * k + i) % 8 = i := by omega
  have hin : 8 * k + i < 8 * n := by omega
  rw [BitVec.getLsbD_extractLsb', getLsbD_packBytes n m base _ (by omega), hbyte, hbit]
  simp [hi, hin]

/-- A register of `n` packed bytes reads 0 above them (10_state R30). -/
theorem packBytes_toNat_lt (m : Mem) (base n : Nat) : (packBytes m base n).toNat < 2 ^ (8 * n) := by
  refine Nat.lt_pow_two_of_testBit _ fun j hj => ?_
  change (packBytes m base n).getLsbD j = false
  by_cases h64 : j < 64
  · rw [getLsbD_packBytes n m base j h64]
    simp [Nat.not_lt.2 hj]
  · exact BitVec.getLsbD_of_ge _ _ (by omega)

end Sys2Proof.Machine
end

section
/-! An encode under every interleaving: the bytes still to come, and what the sink, OBUF and ENC_LEN come to with them, which
no agent step that spares the encoder changes. -/

namespace Sys2Proof.Machine

/-! ### The encode loop, one byte at a time -/

theorem ushiftRight_seven_toNat (v : Word) : (v >>> 7).toNat = v.toNat / 128 := by
  rw [BitVec.toNat_ushiftRight, Nat.shiftRight_eq_div_pow]

theorem moreBits_eq_false_iff (v : Word) : moreBits v = false ↔ v.toNat < 128 := by
  rw [← Bool.not_eq_true, moreBits_iff, Nat.not_le]

/-- The loop of 40_encoder R102 stops exactly when no bit above the lowest 7 is set. -/
theorem ushiftRight_seven_eq_zero_iff (v : Word) : v >>> 7 = 0#64 ↔ moreBits v = false := by
  rw [moreBits_eq_false_iff, ← BitVec.toNat_inj, ushiftRight_seven_toNat, BitVec.toNat_zero]
  omega

theorem outByte_of_not_moreBits {v : Word} (h : moreBits v = false) : outByte v = v.setWidth 8 := by
  rw [outByte, if_neg (by simp [h]), BitVec.setWidth_eq_extractLsb' (by decide)]

theorem outByte_of_moreBits {v : Word} (h : moreBits v = true) :
    outByte v = ((v &&& 0x7F#64) ||| 0x80#64).setWidth 8 := by
  have hgroup : (v.extractLsb' 0 7).setWidth 8 = (v &&& 0x7F#64).setWidth 8 := by
    apply BitVec.eq_of_toNat_eq
    have hmask : v.toNat &&& 127 = v.toNat % 2 ^ 7 := Nat.and_two_pow_sub_one_eq_mod v.toNat 7
    rw [BitVec.toNat_setWidth, BitVec.toNat_setWidth, BitVec.extractLsb'_toNat, Nat.shiftRight_zero, BitVec.toNat_and,
      ← hmask]
    rfl
  rw [outByte, if_pos h, hgroup, BitVec.setWidth_or]
  rfl

/-- One round of the loop is one byte of the encoder's step (40_encoder R102, R106). -/
theorem encodeLoop_succ (n : Nat) (v : Word) :
    encodeLoop (n + 1) v = if moreBits v then outByte v :: encodeLoop n (v >>> 7) else [outByte v] := by
  rw [encodeLoop]
  cases hm : moreBits v with
  | false => rw [if_pos ((ushiftRight_seven_eq_zero_iff v).2 hm), outByte_of_not_moreBits hm]; rfl
  | true =>
    have hne : v >>> 7 ≠ 0#64 := fun h0 => by simp [(ushiftRight_seven_eq_zero_iff v).1 h0] at hm
    rw [if_neg hne, outByte_of_moreBits hm]
    rfl

/-- A value of at most 7(n+1) bits needs no more than n+1 rounds. -/
theorem encodeLoop_fuel : ∀ (n : Nat) (v : Word), v.toNat < 2 ^ (7 * (n + 1)) → encodeLoop (n + 2) v = encodeLoop (n + 1) v
  | 0, v, h => by
    have hlast : ¬ moreBits v = true := by simp [(moreBits_eq_false_iff v).2 h]
    rw [encodeLoop_succ 1 v, encodeLoop_succ 0 v, if_neg hlast, if_neg hlast]
  | n + 1, v, h => by
    have hshift : (v >>> 7).toNat < 2 ^ (7 * (n + 1)) := by
      rw [ushiftRight_seven_toNat]
      rw [Nat.mul_succ, Nat.pow_add] at h
      omega
    rw [encodeLoop_succ (n + 2) v, encodeLoop_succ (n + 1) v, encodeLoop_fuel n _ hshift]

theorem encodeLoop_length_le : ∀ (n k : Nat) (v : Word), v.toNat < 2 ^ (7 * (k + 1)) → (encodeLoop n v).length ≤ k + 1
  | 0, k, _, _ => Nat.zero_le _
  | n + 1, k, v, h => by
    rw [encodeLoop_succ]
    split
    · next hmore =>
      have hlarge := (moreBits_iff v).1 hmore
      cases k with
      | zero => omega
      | succ k =>
        have hshift : (v >>> 7).toNat < 2 ^ (7 * (k + 1)) := by
          rw [ushiftRight_seven_toNat]
          rw [Nat.mul_succ, Nat.pow_add] at h
          omega
        exact Nat.succ_le_succ (encodeLoop_length_le n k _ hshift)
    · exact Nat.succ_le_succ (Nat.zero_le k)

/-- The whole encoding, byte by byte as the encoder's steps give it (40_encoder R106). -/
theorem encodeUnsigned_eq (v : Word) :
    encodeUnsigned v = if moreBits v then outByte v :: encodeUnsigned (v >>> 7) else [outByte v] := by
  have hshift : (v >>> 7).toNat < 2 ^ (7 * (8 + 1)) := by
    have := v.isLt
    rw [ushiftRight_seven_toNat]
    omega
  rw [encodeUnsigned, encodeLoop_succ, encodeUnsigned, encodeLoop_fuel 8 _ hshift]

theorem encodeUnsigned_ne_nil (v : Word) : encodeUnsigned v ≠ [] := by
  rw [encodeUnsigned_eq]
  split <;> exact List.cons_ne_nil _ _

theorem encodeUnsigned_length_le_ten (v : Word) : (encodeUnsigned v).length ≤ 10 :=
  encodeLoop_length_le 10 9 v (v.isLt.trans (by decide))

/-- The table of 30_encoding R84 gives room enough for the value. -/
theorem encodedLen_room (v : Word) : ∃ k, encodedLen v = k + 1 ∧ v.toNat < 2 ^ (7 * (k + 1)) := by
  have := v.isLt
  simp only [encodedLen, BitVec.le_def, BitVec.toNat_ofNat]
  split_ifs <;> exact ⟨_, rfl, by omega⟩

theorem encodeUnsigned_length_le (v : Word) : (encodeUnsigned v).length ≤ encodedLen v := by
  obtain ⟨k, hk, hroom⟩ := encodedLen_room v
  exact hk ▸ encodeLoop_length_le 10 k v hroom

/-! ### Bytes stored one after the other -/

/-- The bytes written at index `k` and on, as buffer-mode steps write them (40_encoder R107). -/
def storeBytes : Mem → Count → List Byte → Mem
  | m, _, [] => m
  | m, k, b :: bs => storeBytes (writeByte m k.toNat b) (k + 1#4) bs

/-- The stored bytes stand from their index on, and every other byte is as it was. -/
theorem readByte_storeBytes : ∀ {m : Mem} {k : Count} {bs : List Byte}, memWf m = true → k.toNat + bs.length ≤ 10 →
    ∀ j, readByte (storeBytes m k bs) j = if j < k.toNat then readByte m j else bs.getD (j - k.toNat) (readByte m j)
  | m, k, [], _, _, j => by simp [storeBytes]
  | m, k, b :: bs, hm, hlen, j => by
    rw [List.length_cons] at hlen
    have hk : (k + 1#4).toNat = k.toNat + 1 := by
      rw [BitVec.toNat_add, BitVec.toNat_ofNat]
      omega
    rw [storeBytes, readByte_storeBytes (memWf_writeByte _ b hm) (by omega) j, hk]
    rcases Nat.lt_trichotomy j k.toNat with hlt | heq | hgt
    · rw [if_pos (by omega), if_pos hlt, readByte_writeByte_ne (by omega)]
    · rw [if_pos (by omega), if_neg (by omega), heq, readByte_writeByte_same b hm (by omega), Nat.sub_self]
      rfl
    · have hidx : j - k.toNat = j - (k.toNat + 1) + 1 := by omega
      rw [if_neg (by omega), if_neg (by omega), readByte_writeByte_ne (by omega), hidx, List.getD_cons_succ]

/-! ### What an operation comes to -/

/-- The bytes a busy encoder has still to emit. -/
def Encoder.pending (d : Encoder) : List Byte := if d.ctl.busy then encodeUnsigned d.work else []

theorem Encoder.pending_idle {d : Encoder} (h : d.ctl.busy = false) : d.pending = [] := by
  simp [Encoder.pending, h]

theorem Encoder.idle_of_pending_eq_nil {d : Encoder} (h : d.pending = []) : d.ctl.busy = false := by
  cases hb : d.ctl.busy with
  | false => rfl
  | true => exact absurd ((if_pos hb).symm.trans h) (encodeUnsigned_ne_nil _)

/-- Where the encoder's operation leads: the sink, OBUF and ENC_LEN once every pending byte is emitted, and the mode. -/
structure EncodeOutcome where
  sink : List Byte
  obuf : Mem
  cnt : Count
  buffer : Bool

/-- The outcome of the encoder's operation in the state `s`. -/
def State.encodeOutcome (s : State) : EncodeOutcome where
  sink := s.sink ++ if s.enc.ctl.buffer then [] else s.enc.pending
  obuf := if s.enc.ctl.buffer then storeBytes s.enc.obuf s.enc.ctl.cnt s.enc.pending else s.enc.obuf
  cnt := s.enc.ctl.cnt + BitVec.ofNat 4 s.enc.pending.length
  buffer := s.enc.ctl.buffer

theorem State.encodeOutcome_idle {s : State} (h : s.enc.ctl.busy = false) :
    s.encodeOutcome = { sink := s.sink, obuf := s.enc.obuf, cnt := s.enc.ctl.cnt, buffer := s.enc.ctl.buffer } := by
  simp [State.encodeOutcome, Encoder.pending_idle h, storeBytes]

/-- Advancing takes the first byte off the pending ones, whatever OBUF holds. -/
theorem Encoder.pending_advance {d : Encoder} (h : d.ctl.busy = true) (m : Mem) :
    d.pending = outByte d.work :: (encoderAdvance { d with obuf := m }).pending := by
  rw [Encoder.pending, if_pos h, encodeUnsigned_eq]
  unfold encoderAdvance
  split
  · exact congrArg (outByte d.work :: ·) (if_pos h).symm
  · rfl

/-- An encoder step emits the first pending byte. -/
theorem Encoder.pending_emit {d : Encoder} (h : d.ctl.busy = true) : d.pending = outByte d.work :: d.emit.pending := by
  unfold Encoder.emit
  split
  · exact Encoder.pending_advance h _
  · exact Encoder.pending_advance h d.obuf

@[simp] theorem encoderAdvance_cnt (d : Encoder) : (encoderAdvance d).ctl.cnt = d.ctl.cnt + 1#4 := by
  unfold encoderAdvance
  split <;> rfl

@[simp] theorem encoderAdvance_buffer (d : Encoder) : (encoderAdvance d).ctl.buffer = d.ctl.buffer := by
  unfold encoderAdvance
  split <;> rfl

@[simp] theorem encoderAdvance_obuf (d : Encoder) : (encoderAdvance d).obuf = d.obuf := by
  unfold encoderAdvance
  split <;> rfl

/-- A turn with an enabled step emits a byte; any other turn changes nothing. -/
theorem Encoder.turn_cases (a : Bool) (d : Encoder) :
    (d.ctl.busy = true ∧ (d.ctl.buffer = true ∨ a = true) ∧ d.turn a = d.emit) ∨
    ((d.ctl.busy = false ∨ (d.ctl.buffer = false ∧ a = false)) ∧ d.turn a = d) := by
  unfold Encoder.turn
  cases d.ctl.busy <;> cases d.ctl.buffer <;> cases a <;> simp

theorem Encoder.emit_cnt (d : Encoder) : d.emit.ctl.cnt = d.ctl.cnt + 1#4 := by
  unfold Encoder.emit
  split <;> exact encoderAdvance_cnt _

theorem Encoder.emit_buffer (d : Encoder) : d.emit.ctl.buffer = d.ctl.buffer := by
  unfold Encoder.emit
  split <;> exact encoderAdvance_buffer _

theorem Encoder.emit_obuf (d : Encoder) :
    d.emit.obuf = if d.ctl.buffer then writeByte d.obuf d.ctl.cnt.toNat (outByte d.work) else d.obuf := by
  unfold Encoder.emit
  split <;> exact encoderAdvance_obuf _

/-- An emitted byte moves from the pending ones to the sink or to OBUF, so the outcome stays (40_encoder R107). -/
theorem encodeOutcome_emit {s t : State} (hb : s.enc.ctl.busy = true) (henc : t.enc = s.enc.emit)
    (hsink : t.sink = s.sink ++ if s.enc.ctl.buffer then [] else [outByte s.enc.work]) :
    t.encodeOutcome = s.encodeOutcome := by
  have hcnt : s.enc.ctl.cnt + 1#4 + BitVec.ofNat 4 s.enc.emit.pending.length
      = s.enc.ctl.cnt + BitVec.ofNat 4 (s.enc.emit.pending.length + 1) := by
    rw [BitVec.ofNat_add, BitVec.add_assoc, BitVec.add_comm 1#4]
  simp only [State.encodeOutcome, henc, hsink, Encoder.emit_cnt, Encoder.emit_buffer, Encoder.emit_obuf,
    Encoder.pending_emit hb, List.length_cons, hcnt]
  cases s.enc.ctl.buffer
  · simp
  · simp [storeBytes]

/-- OVR is no part of the outcome. -/
theorem encodeOutcome_withOvr {s t : State} {o : Bool} (henc : t.enc = s.enc.withOvr o) (hsink : t.sink = s.sink) :
    t.encodeOutcome = s.encodeOutcome := by
  rw [State.encodeOutcome, henc, hsink]
  rfl

theorem Encoder.delivered_of_enabled {d : Encoder} {a : Bool} (hb : d.ctl.busy = true)
    (hon : d.ctl.buffer = true ∨ a = true) :
    d.delivered (.encoder a) = if d.ctl.buffer then [] else [outByte d.work] := by
  rcases hon with hbuf | rfl
  · cases a <;> simp [Encoder.delivered, hbuf]
  · cases hbuf : d.ctl.buffer <;> simp [Encoder.delivered, hb, hbuf]

theorem Encoder.delivered_of_stalled {d : Encoder} {a : Bool}
    (hoff : d.ctl.busy = false ∨ (d.ctl.buffer = false ∧ a = false)) : d.delivered (.encoder a) = [] := by
  rcases hoff with hb | ⟨-, rfl⟩
  · cases a <;> simp [Encoder.delivered, hb]
  · rfl

theorem Encoder.delivered_of_not_turn {e : Event} (h : ∀ a, e ≠ .encoder a) (d : Encoder) : d.delivered e = [] := by
  rcases d.delivered_cases e with hnone | ⟨he, -⟩
  · exact hnone
  · exact absurd he (h true)

theorem runsEncoder_of_not_turn {e : Event} (h : ∀ a, e ≠ .encoder a) (buffer : Bool) : runsEncoder buffer e = false := by
  cases e with
  | encoder a => exact absurd rfl (h a)
  | hostRead | hostWrite | hostPartial | decoder | reset => rfl

/-- An agent step that spares the encoder is an enabled step of it, which emits a byte, or leaves all but its OVR alone. -/
theorem runEvent_enc_cases {e : Event} {s t : State} (hspare : sparesUnit .enc e = true) (h : runEvent e s = .next t) :
    (s.enc.ctl.busy = true ∧ runsEncoder s.enc.ctl.buffer e = true ∧ t.enc = s.enc.emit
      ∧ t.sink = s.sink ++ if s.enc.ctl.buffer then [] else [outByte s.enc.work]) ∨
    ((s.enc.ctl.busy = false ∨ runsEncoder s.enc.ctl.buffer e = false) ∧ (∃ o, t.enc = s.enc.withOvr o)
      ∧ t.sink = s.sink) := by
  have henc := (runEvent_agentStep h).enc
  have hsink := runEvent_sink h
  rcases Encoder.after_of_spares hspare s.encVal s.enc with ⟨a, rfl, hafter⟩ | ⟨hother, o, hafter⟩
  · rcases s.enc.turn_cases a with ⟨hb, hon, hturn⟩ | ⟨hoff, hturn⟩
    · rw [Encoder.delivered_of_enabled hb hon] at hsink
      exact .inl ⟨hb, by simpa [runsEncoder] using hon, henc.trans (hafter.trans hturn), hsink⟩
    · rw [Encoder.delivered_of_stalled hoff, List.append_nil] at hsink
      exact .inr ⟨by simpa [runsEncoder] using hoff, ⟨s.enc.ctl.ovr, henc.trans (hafter.trans hturn)⟩, hsink⟩
  · rw [Encoder.delivered_of_not_turn hother, List.append_nil] at hsink
    exact .inr ⟨.inr (runsEncoder_of_not_turn hother _), ⟨o, henc.trans hafter⟩, hsink⟩

/-- No agent step that spares the encoder changes what its operation comes to. -/
theorem runEvent_encodeOutcome {e : Event} {s t : State} (hspare : sparesUnit .enc e = true)
    (h : runEvent e s = .next t) : t.encodeOutcome = s.encodeOutcome := by
  rcases runEvent_enc_cases hspare h with ⟨hb, -, henc, hsink⟩ | ⟨-, ⟨o, henc⟩, hsink⟩
  · exact encodeOutcome_emit hb henc hsink
  · exact encodeOutcome_withOvr henc hsink

/-- Every enabled turn takes one byte off the pending ones. -/
theorem runEvent_pending_length {e : Event} {s t : State} (hspare : sparesUnit .enc e = true)
    (h : runEvent e s = .next t) :
    t.enc.pending.length = s.enc.pending.length - if runsEncoder s.enc.ctl.buffer e then 1 else 0 := by
  rcases runEvent_enc_cases hspare h with ⟨hb, hrun, henc, -⟩ | ⟨hoff, ⟨o, henc⟩, -⟩
  · rw [henc, if_pos hrun, Encoder.pending_emit hb, List.length_cons, Nat.add_sub_cancel]
  · have hsame : t.enc.pending = s.enc.pending := by rw [henc]; rfl
    rcases hoff with hidle | hrun
    · rw [hsame, Encoder.pending_idle hidle, List.length_nil, Nat.zero_sub]
    · rw [hsame, hrun]
      rfl

/-- A legal operation that runs or has completed: ERR = 0, and DONE exactly when not BUSY (40_encoder R108). -/
def Encoder.Sound (d : Encoder) : Prop := d.ctl.err = .none ∧ d.ctl.done = !d.ctl.busy

theorem Encoder.Sound.emit {d : Encoder} (h : d.Sound) : d.emit.Sound := by
  have hadvance : ∀ m, (encoderAdvance { d with obuf := m }).Sound := fun m => by
    unfold encoderAdvance
    split
    · exact h
    · exact ⟨rfl, rfl⟩
  unfold Encoder.emit
  split
  · exact hadvance _
  · exact hadvance d.obuf

theorem runEvent_sound {e : Event} {s t : State} (hspare : sparesUnit .enc e = true) (hs : s.enc.Sound)
    (h : runEvent e s = .next t) : t.enc.Sound := by
  rcases runEvent_enc_cases hspare h with ⟨-, -, henc, -⟩ | ⟨-, ⟨o, henc⟩, -⟩
  · exact henc ▸ hs.emit
  · exact henc ▸ hs

/-! ### Sequences of agent steps -/

theorem runEvents_encodeOutcome {es : List Event} {s t : State} (hspare : ∀ e ∈ es, sparesUnit .enc e = true)
    (h : runEvents es s = .next t) : t.encodeOutcome = s.encodeOutcome :=
  runEvents_keeps (P := fun u => u.encodeOutcome = s.encodeOutcome)
    (fun _ _ _ he hu hrun => (runEvent_encodeOutcome he hrun).trans hu) es hspare rfl h

theorem runEvents_sound {es : List Event} {s t : State} (hspare : ∀ e ∈ es, sparesUnit .enc e = true)
    (hs : s.enc.Sound) (h : runEvents es s = .next t) : t.enc.Sound :=
  runEvents_keeps (P := fun u => u.enc.Sound) (fun _ _ _ he hu hrun => runEvent_sound he hu hrun) es hspare hs h

/-- The pending bytes left after a sequence are as many as its enabled turns leave (70_reset_and_hazards R239). -/
theorem runEvents_pending_length : ∀ {es : List Event} {s t : State}, (∀ e ∈ es, sparesUnit .enc e = true) →
    runEvents es s = .next t → t.enc.pending.length = s.enc.pending.length - encoderTurns s.enc.ctl.buffer es
  | [], _, _, _, h => by
    obtain rfl := Host.Outcome.next.inj h
    rfl
  | e :: es, s, t, hspare, h => by
    obtain ⟨u, hu, hrest⟩ := runEvents_cons_next.1 h
    obtain ⟨he, hes⟩ := List.forall_mem_cons.1 hspare
    have hmode : u.enc.ctl.buffer = s.enc.ctl.buffer := congrArg EncodeOutcome.buffer (runEvent_encodeOutcome he hu)
    rw [runEvents_pending_length hes hrest, runEvent_pending_length he hu, hmode, encoderTurns, encoderTurns,
      List.countP_cons, Nat.sub_sub, Nat.add_comm]

/-- An idle encoder accepts its command (40_encoder R105). -/
theorem exec_enc_idle {i : Instr} {s : State} (hi : i.unit = .enc) (hidle : s.enc.ctl.busy = false) :
    exec i s = .next { s with enc := encoderInit i.signed i.width i.buffer s } := by
  rw [exec_enc i s hi, issueEncoder, if_neg (by simp [hidle])]

/-- What an accepted command comes to: the encoding of the operand just latched (40_encoder R105, R108). -/
theorem encodeOutcome_encoderInit (i : Instr) (s : State) :
    ({ s with enc := encoderInit i.signed i.width i.buffer s } : State).encodeOutcome =
      { sink := s.sink ++ if i.buffer then [] else encodedBytes i.signed i.width s.encVal
        obuf := if i.buffer then storeBytes [] 0#4 (encodedBytes i.signed i.width s.encVal) else s.enc.obuf
        cnt := BitVec.ofNat 4 (encodedBytes i.signed i.width s.encVal).length
        buffer := i.buffer } := by
  have hpending : (encoderInit i.signed i.width i.buffer s).pending = encodedBytes i.signed i.width s.encVal := rfl
  simp only [State.encodeOutcome, hpending, encoderInit_ctl, Control.accept_buffer, Control.accept_cnt, BitVec.zero_add,
    encoderInit_obuf]
  cases i.buffer <;> rfl

end Sys2Proof.Machine
end

section
/-! The obligations of 20_memory. -/

open Sys2Proof Sys2Proof.Machine

/-- Settles O35: with its turns taken the encoder is idle, and what its operation comes to is what it came to on acceptance. -/
theorem encodeUnderEveryInterleaving : Obligations.EncodeUnderEveryInterleaving := by
  unfold Obligations.EncodeUnderEveryInterleaving
  intro i es s t hi hidle hspare hrun hturns
  obtain ⟨u, hu, hrest⟩ := runEvents_cons_next.1 hrun
  rw [runEvent_issue, exec_enc_idle hi hidle] at hu
  obtain rfl := Host.Outcome.next.inj hu
  have hlen : (encodedBytes i.signed i.width s.encVal).length ≤ 10 := encodeUnsigned_length_le_ten _
  have hbusy : t.enc.ctl.busy = false := by
    refine Encoder.idle_of_pending_eq_nil (List.eq_nil_of_length_eq_zero ?_)
    rw [runEvents_pending_length hspare hrest]
    exact Nat.sub_eq_zero_of_le ((encodeUnsigned_length_le _).trans hturns)
  obtain ⟨herr, hdone⟩ := runEvents_sound hspare ⟨rfl, rfl⟩ hrest
  have hout := runEvents_encodeOutcome hspare hrest
  rw [State.encodeOutcome_idle hbusy, encodeOutcome_encoderInit] at hout
  obtain ⟨hsink, hobuf, hcnt, -⟩ := EncodeOutcome.mk.inj hout
  refine ⟨hbusy, by rw [hdone, hbusy]; rfl, herr, ?_, fun hbuf => ?_, fun hbuf => ⟨?_, fun k => ?_⟩⟩
  · rw [hcnt, BitVec.toNat_ofNat]
    exact Nat.mod_eq_of_lt (by omega)
  · rw [hsink, hobuf, hbuf]
    exact ⟨rfl, rfl⟩
  · rw [hsink, hbuf]
    exact List.append_nil _
  · rw [hobuf, hbuf, if_pos rfl, readByte_storeBytes memWf_nil (by simpa using hlen) k]
    rfl

/-- Settles O56: a unit with DONE = 1 is idle by the invariant, and what spares an idle unit changes none of its results. -/
theorem resultsStableAfterDone : Obligations.ResultsStableAfterDone := by
  unfold Obligations.ResultsStableAfterDone
  intro es s t hinv hrun
  obtain ⟨⟨hencBusy, _⟩, ⟨hdecBusy, _⟩⟩ := hinv
  constructor
  · intro hspare hdone
    obtain ⟨o, henc⟩ := runEvents_enc_idle hrun hspare (Control.idle_of_done hencBusy hdone)
    simp only [readReg, hostReg, henc]
    exact ⟨hdone, rfl, rfl, rfl, rfl⟩
  · intro hspare hdone
    obtain ⟨o, m, l, hdec⟩ := runEvents_dec_idle hrun hspare (Control.idle_of_done hdecBusy hdone)
    simp only [readReg, hostReg, hdec]
    exact ⟨hdone, rfl, rfl, rfl⟩

/-- Settles O12, by induction on the agenda: an agent step neither reads nor changes the agenda. -/
theorem runOverAgenda : Obligations.RunOverAgenda := by
  unfold Obligations.RunOverAgenda
  exact fun es rest s _ h => core_run_agenda es (s := { s with agenda := rest }) h rfl

/-- Settles O21, by the law of a byte of a packed register. -/
theorem bufferPacking : Obligations.BufferPacking := by
  unfold Obligations.BufferPacking
  intro s
  have hlo : ∀ (m : Mem) (k : Nat), k < 8 → (packBytes m 0 8).extractLsb' (8 * k) 8 = readByte m k := fun m k hk => by
    rw [extractLsb'_packBytes m 0 hk (by decide), Nat.zero_add]
  have hhi : ∀ (m : Mem) (k : Nat), 8 ≤ k → k < 10 →
      (packBytes m 8 2).extractLsb' (8 * (k - 8)) 8 = readByte m k := fun m k h8 hk => by
    rw [extractLsb'_packBytes m 8 (by omega) (by decide), Nat.add_sub_cancel' h8]
  exact ⟨fun k hk => ⟨hlo _ k hk, hlo _ k hk⟩, fun k h8 hk => ⟨hhi _ k h8 hk, hhi _ k h8 hk⟩,
    packBytes_toNat_lt _ 8 2, packBytes_toNat_lt _ 8 2⟩

/-- Settles O59, from what an agent step gives to the sink and takes from the source. -/
theorem streamsOneByOne : Obligations.StreamsOneByOne := by
  unfold Obligations.StreamsOneByOne
  intro e s t hrun
  have hstep := runEvent_agentStep hrun
  rw [runEvent_sink hrun, hstep.source, hstep.sourcePos]
  constructor
  · rcases s.enc.delivered_cases e with hnone | ⟨he, hb, hm, hone⟩
    · exact .inl (by rw [hnone, List.append_nil])
    · exact .inr ⟨he, hb, hm, _, by rw [hone]⟩
  · rcases sourceAfter_cases e s with hsame | ⟨he, hb, hm, htaken⟩
    · exact .inl (by rw [hsame]; exact ⟨rfl, rfl⟩)
    · refine .inr ⟨he, hb, hm, ?_⟩
      rw [htaken]
      rcases sourceRead_cases s with ⟨r, rest, hs, hread⟩ | ⟨hs, hread⟩
      · exact .inl ⟨r, by rw [hread, hs], by rw [hread]⟩
      · exact .inr ⟨hs, by rw [hread]; exact hs, by rw [hread]⟩

/-- Settles O10, from the two cases of the next event. -/
theorem stepRunsNextEvent : Obligations.StepRunsNextEvent := by
  unfold Obligations.StepRunsNextEvent
  constructor
  · intro s e rest h
    rw [step, nextEvent, h]
  · intro s h
    rw [step, nextEvent, h]

/-- Settles O20: the arm of a partial access is the refusal. -/
theorem partialAccessRefused : Obligations.PartialAccessRefused := by
  unfold Obligations.PartialAccessRefused
  exact fun _ _ => rfl

end

section
/-! Zig-zag and the encoder's operand as integers. -/

namespace Sys2Proof

theorem Width.bits_pos (w : Width) : 0 < w.bits := by cases w <;> decide

end Sys2Proof

namespace Sys2Proof.Machine

/-- The arithmetic shift by W - 1 spreads the sign bit over the whole word (40_encoder R100). -/
theorem sshiftRight_width_sub_one {n : Nat} (x : BitVec n) :
    x.sshiftRight (n - 1) = if x.msb then BitVec.allOnes n else 0#n := by
  apply BitVec.eq_of_getLsbD_eq
  intro i hi
  have hbit : (x.sshiftRight (n - 1)).getLsbD i = x.msb := by
    rw [BitVec.getLsbD_sshiftRight, BitVec.msb_eq_getLsbD_last]
    have hpos : n ≠ 0 := by omega
    by_cases h0 : i = 0
    · simp [h0, hpos]
    · have hover : ¬ n - 1 + i < n := by omega
      simp [hi, hover]
  rw [hbit]
  cases x.msb
  · simp
  · simp [hi]

/-- Zig-zag doubles, and for a negative value complements (40_encoder R100). -/
theorem zigzag_eq {n : Nat} (x : BitVec n) : zigzag x = if x.msb then ~~~(x <<< 1) else x <<< 1 := by
  rw [zigzag, sshiftRight_width_sub_one]
  cases x.msb
  · exact BitVec.xor_zero
  · exact BitVec.xor_allOnes

/-- Zig-zag as integers: 2x for a nonnegative x, and -2x - 1 for a negative one (40_encoder R100). -/
theorem zigzag_toNat {n : Nat} (x : BitVec n) (hn : 0 < n) :
    ((zigzag x).toNat : Int) = if 0 ≤ x.toInt then 2 * x.toInt else -2 * x.toInt - 1 := by
  have hx := x.isLt
  have hdouble : (x <<< 1).toNat = 2 * x.toNat % 2 ^ n := by
    rw [BitVec.toNat_shiftLeft, Nat.shiftLeft_eq, Nat.mul_comm]
  have hhalf : 2 ^ n = 2 * 2 ^ (n - 1) := by rw [← Nat.pow_succ', Nat.succ_eq_add_one, Nat.sub_add_cancel hn]
  have hmsb := x.msb_eq_decide
  rw [zigzag_eq]
  cases hm : x.msb with
  | false =>
    have hlow : x.toNat < 2 ^ (n - 1) := by simpa [hm] using hmsb
    rw [if_neg (by decide), x.toInt_eq_toNat_of_msb hm, if_pos (by omega), hdouble, Nat.mod_eq_of_lt (by omega)]
    omega
  | true =>
    have hhigh : 2 ^ (n - 1) ≤ x.toNat := by simpa [hm] using hmsb
    have hmod : 2 * x.toNat % 2 ^ n = 2 * x.toNat - 2 ^ n := by
      rw [Nat.mod_eq_sub_mod (by omega), Nat.mod_eq_of_lt (by omega)]
    have hint : x.toInt = x.toNat - (2 ^ n : Nat) := by rw [x.toInt_eq_msb_cond, if_pos hm]
    rw [if_pos rfl, hint, if_neg (by omega), BitVec.toNat_not, hdouble, hmod]
    omega

theorem encoderOperand_unsigned (w : Width) (x : Word) : encoderOperand false w x = keepWidth w x := by
  cases w <;> rfl

/-- A signed operand is the zig-zag of ENC_VAL[W-1:0] (40_encoder R105). -/
theorem encoderOperand_signed_toNat (w : Width) (x : Word) :
    (encoderOperand true w x).toNat = (zigzag (x.setWidth w.bits)).toNat := by
  cases w with
  | w32 => exact BitVec.toNat_setWidth_of_le (by decide)
  | w64 => exact congrArg (fun y => (zigzag y).toNat) (BitVec.setWidth_eq x).symm

end Sys2Proof.Machine
end

section
/-! The encoding as a varint: its value, its continuation bits and its length. -/

namespace Sys2Proof.Machine

/-- Induction along the bytes of an encoding: a last group, or a group with more bits above it (40_encoder R102). -/
theorem encode_induction {P : Word → Prop} (last : ∀ v, moreBits v = false → P v)
    (more : ∀ v, moreBits v = true → P (v >>> 7) → P v) (v : Word) : P v := by
  cases hm : moreBits v with
  | false => exact last v hm
  | true => exact more v hm (encode_induction last more (v >>> 7))
termination_by v.toNat
decreasing_by
  have hlarge := (moreBits_iff v).1 hm
  rw [ushiftRight_seven_toNat]
  omega

theorem encodeUnsigned_last {v : Word} (h : moreBits v = false) : encodeUnsigned v = [outByte v] := by
  rw [encodeUnsigned_eq, if_neg (by simp [h])]

theorem encodeUnsigned_more {v : Word} (h : moreBits v = true) :
    encodeUnsigned v = outByte v :: encodeUnsigned (v >>> 7) := by
  rw [encodeUnsigned_eq, if_pos h]

/-- The emitted byte carries the lowest group of the value (40_encoder R106). -/
theorem group_outByte (v : Word) : (group (outByte v)).toNat = v.toNat % 128 := by
  rw [group_toNat, outByte_toNat]
  split <;> omega

/-- The emitted byte has C = 1 exactly when more groups follow (40_encoder R106). -/
theorem contBit_outByte (v : Word) : contBit (outByte v) = moreBits v := by
  rw [Bool.eq_iff_iff, contBit_iff, moreBits_iff, outByte_toNat]
  split <;> omega

theorem varintValue_encodeUnsigned (v : Word) : varintValue (encodeUnsigned v) = v.toNat := by
  induction v using encode_induction with
  | last v hm =>
    have hsmall := (moreBits_eq_false_iff v).1 hm
    rw [encodeUnsigned_last hm, varintValue, varintValue, group_outByte]
    omega
  | more v hm ih =>
    rw [encodeUnsigned_more hm, varintValue, ih, group_outByte, ushiftRight_seven_toNat]
    omega

theorem contRun_encodeUnsigned (v : Word) : contRun (encodeUnsigned v) + 1 = (encodeUnsigned v).length := by
  induction v using encode_induction with
  | last v hm => rw [encodeUnsigned_last hm, contRun, contBit_outByte, hm]; rfl
  | more v hm ih => rw [encodeUnsigned_more hm, contRun, contBit_outByte, hm, if_pos rfl, ih, List.length_cons]

/-- A varint of k bytes has a value of 7k bits. -/
theorem varintValue_lt (bs : List Byte) : varintValue bs < 2 ^ (7 * bs.length) := by
  induction bs with
  | nil => exact Nat.one_pos
  | cons b bs ih =>
    have hgroup := (group b).isLt
    rw [varintValue, List.length_cons, Nat.mul_succ, Nat.pow_add]
    omega

/-- The table of 30_encoding R84 gives no more room than the value needs. -/
theorem encodedLen_tight (v : Word) (h : encodedLen v ≠ 1) : 2 ^ (7 * (encodedLen v - 1)) ≤ v.toNat := by
  revert h
  simp only [encodedLen, BitVec.le_def, BitVec.toNat_ofNat]
  split_ifs <;> omega

theorem encodedLen_le {v : Word} {k : Nat} (hk : 1 ≤ k) (h : v.toNat < 2 ^ (7 * k)) : encodedLen v ≤ k := by
  by_contra hlt
  have hexp : 7 * k ≤ 7 * (encodedLen v - 1) := by omega
  have hpow : 2 ^ (7 * k) ≤ 2 ^ (7 * (encodedLen v - 1)) := Nat.pow_le_pow_right (by decide) hexp
  have htight := encodedLen_tight v (by omega)
  omega

theorem encodeUnsigned_length (v : Word) : (encodeUnsigned v).length = encodedLen v := by
  have hroom : v.toNat < 2 ^ (7 * (encodeUnsigned v).length) := varintValue_encodeUnsigned v ▸ varintValue_lt _
  have hpos : 1 ≤ (encodeUnsigned v).length := List.length_pos_of_ne_nil (encodeUnsigned_ne_nil v)
  exact Nat.le_antisymm (encodeUnsigned_length_le v) (encodedLen_le hpos hroom)

/-- MAXB(W) is the number of 7-bit groups that W bits need (00_scope R6). -/
theorem maxBytes_eq (w : Width) : maxBytes w = (w.bits + 6) / 7 := by cases w <;> rfl

theorem encodedLen_le_maxBytes {v : Word} {w : Width} (h : v.toNat < 2 ^ w.bits) : encodedLen v ≤ maxBytes w := by
  refine encodedLen_le (maxBytes_pos w) (h.trans_le (Nat.pow_le_pow_right (by decide) ?_))
  rw [maxBytes_eq]
  omega

end Sys2Proof.Machine
end

section
/-! The command words: the rows of the opcode map against the fields of 30_encoding R85. -/

namespace Sys2Proof

/-- Each word of the map is the encoding of its command and has its reserved bits 0 (30_encoding R85, R87). -/
theorem encode_of_mem_opcodeMap : ∀ p ∈ opcodeMap, encode p.2 = p.1 ∧ p.1.toNat < 16 := by decide

theorem lookupWord_isSome_of_lt {v : Word} (h : v.toNat < 16) : (lookupWord v opcodeMap).isSome = true := by
  have hall : ∀ k : Fin 16, (lookupWord (BitVec.ofNat 64 k) opcodeMap).isSome = true := by decide
  have hv : v = BitVec.ofNat 64 v.toNat := by simp
  exact hv ▸ hall ⟨v.toNat, h⟩

theorem decode_legal_of_lt {v : Word} (h : v.toNat < 16) : ∃ i, decode v = .legal i ∧ encode i = v := by
  obtain ⟨i, hi⟩ := Option.isSome_iff_exists.1 (lookupWord_isSome_of_lt h)
  exact ⟨i, by rw [decode, hi], (encode_of_mem_opcodeMap _ (Machine.mem_of_lookupWord hi)).1⟩

theorem decode_illegal_of_ge {v : Word} (h : 16 ≤ v.toNat) : decode v = .illegalCmd (addressedUnit v) := by
  unfold decode
  cases hl : lookupWord v opcodeMap with
  | none => rfl
  | some i =>
    have hlt : v.toNat < 16 := (encode_of_mem_opcodeMap _ (Machine.mem_of_lookupWord hl)).2
    omega

/-- The fields S, W, B, D of a command stand in bits 0 to 3 of its word (30_encoding R85). -/
theorem encode_fields (i : Instr) :
    i.signed = (encode i).getLsbD 0 ∧ i.width = (if (encode i).getLsbD 1 then .w64 else .w32)
      ∧ i.buffer = (encode i).getLsbD 2 ∧ i.unit = (if (encode i).getLsbD 3 then .dec else .enc) := by
  cases i <;> decide

end Sys2Proof
end

section
/-! What issuing a command leaves, and how a busy unit can go idle. -/

namespace Sys2Proof.Machine

/-- An idle decoder accepts its command (41_decoder R142). -/
theorem exec_dec_idle {i : Instr} {s : State} (hi : i.unit = .dec) (hidle : s.dec.ctl.busy = false) :
    exec i s = .next { s with dec := decoderInit i.signed i.width i.buffer s.dec } := by
  rw [exec_dec i s hi, issueDecoder, if_neg (by simp [hidle])]

/-- A CMD write leaves a busy encoder busy (60_exceptions R204). -/
theorem Encoder.command_busy {d : Encoder} (h : d.ctl.busy = true) (c : Decoded) (x : Word) :
    (d.command c x).ctl.busy = true := by
  match c with
  | .legal i =>
    simp only [Encoder.command, h, if_true]
    split <;> exact h
  | .illegalCmd .enc => simp [Encoder.command, h]
  | .illegalCmd .dec => exact h

theorem Decoder.command_busy {d : Decoder} (h : d.ctl.busy = true) (c : Decoded) : (d.command c).ctl.busy = true := by
  match c with
  | .legal i =>
    simp only [Decoder.command, h, if_true]
    split <;> exact h
  | .illegalCmd .dec => simp [Decoder.command, h]
  | .illegalCmd .enc => exact h

/-- A busy encoder's byte leaves it busy or sets DONE (40_encoder R106, R108). -/
theorem encoderAdvance_busy_or_done {d : Encoder} (h : d.ctl.busy = true) :
    (encoderAdvance d).ctl.busy = true ∨ (encoderAdvance d).ctl.done = true := by
  unfold encoderAdvance
  split
  · exact .inl h
  · exact .inr rfl

theorem Encoder.turn_busy_or_done {d : Encoder} (h : d.ctl.busy = true) (a : Bool) :
    (d.turn a).ctl.busy = true ∨ (d.turn a).ctl.done = true := by
  rcases d.turn_cases a with ⟨-, -, heq⟩ | ⟨-, heq⟩
  · rw [heq, Encoder.emit]
    split <;> exact encoderAdvance_busy_or_done h
  · exact .inl (heq.symm ▸ h)

/-- A byte that a busy decoder consumes leaves it busy or sets DONE (41_decoder R146, R148, 60_exceptions R205). -/
theorem Decoder.consume_busy_or_done {d : Decoder} (h : d.ctl.busy = true) (x : Byte) (last : Bool) :
    (d.consume x last).ctl.busy = true ∨ (d.consume x last).ctl.done = true := by
  rcases d.consume_cases x last with ⟨-, -, heq⟩ | ⟨-, -, -, heq⟩ | ⟨-, heq⟩
  · exact heq ▸ .inr rfl
  · exact heq ▸ .inl h
  · exact heq ▸ .inr rfl

theorem Decoder.turn_busy_or_done {d : Decoder} (h : d.ctl.busy = true) (a : Bool) (r : Response) :
    (d.turn a r).ctl.busy = true ∨ (d.turn a r).ctl.done = true := by
  unfold Decoder.turn
  split
  · cases r with
    | eoi => exact .inr rfl
    | byte x => exact Decoder.consume_busy_or_done h x false
  · split
    · unfold Decoder.bufferStep
      split
      · exact .inr rfl
      · exact Decoder.consume_busy_or_done h _ _
    · exact .inl h

/-- After an agent step a busy encoder is still busy, or the step was reset or its own completing turn. -/
theorem Encoder.after_busy {d : Encoder} (h : d.ctl.busy = true) (e : Event) (x : Word) :
    (d.after e x).ctl.busy = true ∨ e = .reset ∨ ∃ a, e = .encoder a ∧ (d.after e x).ctl.done = true := by
  cases e with
  | hostWrite n v =>
    refine .inl ?_
    simp only [Encoder.after]
    split
    · exact Encoder.command_busy h _ _
    · obtain ⟨o, ho⟩ := d.store_ovr (hostReg n) v
      exact ho ▸ h
  | encoder a => exact (Encoder.turn_busy_or_done h a).imp_right fun hdone => .inr ⟨a, rfl, hdone⟩
  | reset => exact .inr (.inl rfl)
  | hostRead | hostPartial | decoder => exact .inl h

/-- After an agent step a busy decoder is still busy, or the step was reset or its own completing turn. -/
theorem Decoder.after_busy {d : Decoder} (h : d.ctl.busy = true) (e : Event) (r : Response) :
    (d.after e r).ctl.busy = true ∨ e = .reset ∨ ∃ a, e = .decoder a ∧ (d.after e r).ctl.done = true := by
  cases e with
  | hostWrite n v =>
    refine .inl ?_
    simp only [Decoder.after]
    split
    · exact Decoder.command_busy h _
    · obtain ⟨o, m, l, hstore⟩ := d.store_ovrInput (hostReg n) v
      exact hstore ▸ h
  | decoder a => exact (Decoder.turn_busy_or_done h a r).imp_right fun hdone => .inr ⟨a, rfl, hdone⟩
  | reset => exact .inr (.inl rfl)
  | hostRead | hostPartial | encoder => exact .inl h

end Sys2Proof.Machine
end

section
/-! The obligations of 30_encoding. -/

open Sys2Proof Sys2Proof.Machine

/-- Settles O3: the words of the map are those below 16, and each is the encoding of its command. -/
theorem decodeByReservedBits : Obligations.DecodeByReservedBits := by
  unfold Obligations.DecodeByReservedBits
  intro v
  constructor
  · intro hlt
    obtain ⟨i, hdecode, hencode⟩ := decode_legal_of_lt hlt
    exact ⟨i, hdecode, hencode, hencode ▸ encode_fields i⟩
  · exact decode_illegal_of_ge

/-- Settles O8, from the two ways a VENC command is issued. -/
theorem vencFrame : Obligations.VencFrame := by
  unfold Obligations.VencFrame
  intro i s t hi hrun
  rw [exec_enc i s hi] at hrun
  rcases issueEncoder_next hrun with ⟨hbusy, rfl⟩ | ⟨hidle, rfl⟩
  · refine ⟨rfl, fun _ => rfl, fun _ _ => rfl, fun _ hidle => ?_, fun hidle => ?_, fun _ => rfl⟩
    · simp [hbusy] at hidle
    · simp [hbusy] at hidle
  · refine ⟨rfl, fun _ => rfl, fun hkept k => ?_, fun hbuf _ k => ?_, fun _ => rfl, fun hbusy => ?_⟩
    · have hstream : i.buffer = false := hkept.resolve_right (by simp [hidle])
      simp [hstream]
    · rw [encoderInit_obuf, if_pos hbuf]
      rfl
    · simp [hidle] at hbusy

/-- Settles O9, from the two ways a VDEC command is issued. -/
theorem vdecFrame : Obligations.VdecFrame := by
  unfold Obligations.VdecFrame
  intro i s t hi hrun
  rw [exec_dec i s hi] at hrun
  rcases issueDecoder_next hrun with ⟨hbusy, rfl⟩ | ⟨hidle, rfl⟩
  · refine ⟨rfl, fun _ => rfl, fun _ => rfl, rfl, rfl, fun hidle => ?_, fun _ => rfl⟩
    simp [hbusy] at hidle
  · refine ⟨rfl, fun _ => rfl, fun _ => rfl, rfl, rfl, fun _ => rfl, fun hbusy => ?_⟩
    simp [hidle] at hbusy

/-- Settles O29: an unsigned operand is ENC_VAL modulo 2^W, a signed one the zig-zag of ENC_VAL[W-1:0]. -/
theorem encoderOperandIntegers : Obligations.EncoderOperandIntegers := by
  unfold Obligations.EncoderOperandIntegers
  intro w x
  refine ⟨?_, ?_, fun signed => encoderOperand_lt signed w x⟩
  · rw [encoderOperand_unsigned, keepWidth_toNat]
  · rw [encoderOperand_signed_toNat, zigzag_toNat _ w.bits_pos, BitVec.toInt_setWidth]

/-- Settles O30, from the room the table gives and its minimality. -/
theorem encodedLength : Obligations.EncodedLength := by
  unfold Obligations.EncodedLength
  intro v
  obtain ⟨k, hk, hroom⟩ := encodedLen_room v
  exact ⟨by omega, hk ▸ hroom, fun k => encodedLen_le, encodeUnsigned_length v,
    fun w => ⟨maxBytes_eq w, encodedLen_le_maxBytes⟩⟩

/-- Settles O32, by induction along the bytes of the encoding. -/
theorem encodedValue : Obligations.EncodedValue := by
  unfold Obligations.EncodedValue
  exact fun v => ⟨varintValue_encodeUnsigned v, contRun_encodeUnsigned v⟩

/-- Settles O58: every agent step but reset and a unit's own completing turn leaves the busy unit busy. -/
theorem onlyResetAbandons : Obligations.OnlyResetAbandons := by
  unfold Obligations.OnlyResetAbandons
  intro e s t hrun
  have hstep := runEvent_agentStep hrun
  rw [hstep.enc, hstep.dec]
  exact ⟨fun hbusy hidle => (Encoder.after_busy hbusy e _).resolve_left (by simp [hidle]),
    fun hbusy hidle => (Decoder.after_busy hbusy e _).resolve_left (by simp [hidle])⟩

/-- Settles O1, row by row of the opcode map. -/
theorem commandWordsDecode : Obligations.CommandWordsDecode := by
  unfold Obligations.CommandWordsDecode
  decide

/-- Settles O2, command by command: the word built from the fields is the word of the command's row. -/
theorem decodeOfEncode : Obligations.DecodeOfEncode := by
  unfold Obligations.DecodeOfEncode
  intro i
  cases i <;> rfl

/-- Settles O5: what an idle decoder accepts is the decoder's initialisation. -/
theorem vdecAccepted : Obligations.VdecAccepted := by
  unfold Obligations.VdecAccepted
  exact fun _ _ => exec_dec_idle

/-- Settles O11: the step is the CMD write, and that is `exec` of what the word decodes to. -/
theorem stepRunsDecodedCommand : Obligations.StepRunsDecodedCommand := by
  unfold Obligations.StepRunsDecodedCommand
  intro s v i rest hagenda hdecode
  rw [step, nextEvent, hagenda, runEvent_hostWrite_cmd, cmdWrite, hdecode]

end

section
/-! One turn of a unit: what it keeps, when it changes nothing, and the encoder's step in numbers. -/

namespace Sys2Proof.Machine

/-! ### Latched fields and OVR -/

/-- A unit's control part with all that a turn can change cleared: OVR and the latched fields S, W, B are left. -/
def Control.latched (c : Control) : Control := { c with busy := false, done := false, err := .none, cnt := 0#4 }

/-- A control part is its latched fields and OVR with its flags and its count. -/
theorem Control.eq_of_latched {c c' : Control} (h : c'.latched = c.latched) :
    c' = { c with busy := c'.busy, done := c'.done, err := c'.err, cnt := c'.cnt } :=
  congrArg (fun k : Control => { k with busy := c'.busy, done := c'.done, err := c'.err, cnt := c'.cnt }) h

theorem Control.fields_of_latched {c c' : Control} (h : c'.latched = c.latched) :
    c'.ovr = c.ovr ∧ c'.signed = c.signed ∧ c'.width = c.width ∧ c'.buffer = c.buffer := by
  simpa [Control.latched] using h

/-! ### The encoder -/

theorem encoderAdvance_ctl (d : Encoder) :
    (encoderAdvance d).ctl = if moreBits d.work then d.ctl.count else d.ctl.count.complete .none :=
  apply_ite Encoder.ctl _ _ _

theorem encoderAdvance_work (d : Encoder) :
    (encoderAdvance d).work = if moreBits d.work then d.work >>> 7 else d.work :=
  apply_ite Encoder.work _ _ _

theorem Encoder.emit_ctl (d : Encoder) :
    d.emit.ctl = if moreBits d.work then d.ctl.count else d.ctl.count.complete .none := by
  unfold Encoder.emit
  split <;> exact encoderAdvance_ctl _

theorem Encoder.emit_work (d : Encoder) : d.emit.work = if moreBits d.work then d.work >>> 7 else d.work := by
  unfold Encoder.emit
  split <;> exact encoderAdvance_work _

theorem Encoder.emit_latched (d : Encoder) : d.emit.ctl.latched = d.ctl.latched := by
  rw [Encoder.emit_ctl]
  split <;> rfl

theorem Encoder.turn_latched (a : Bool) (d : Encoder) : (d.turn a).ctl.latched = d.ctl.latched := by
  rcases d.turn_cases a with ⟨-, -, heq⟩ | ⟨-, heq⟩
  · rw [heq, Encoder.emit_latched]
  · rw [heq]

/-- A turn of a stream-mode encoder leaves OBUF alone (40_encoder R107). -/
theorem Encoder.turn_obuf_stream {d : Encoder} (h : d.ctl.buffer = false) (a : Bool) : (d.turn a).obuf = d.obuf := by
  rcases d.turn_cases a with ⟨-, -, heq⟩ | ⟨-, heq⟩
  · rw [heq, Encoder.emit_obuf, if_neg (by simp [h])]
  · rw [heq]

theorem Encoder.delivered_buffer {d : Encoder} (h : d.ctl.buffer = true) (a : Bool) : d.delivered (.encoder a) = [] := by
  rcases d.delivered_cases (.encoder a) with hnone | ⟨-, -, hstream, -⟩
  · exact hnone
  · simp [h] at hstream

theorem encoderTurn_stalled {a : Bool} {s : State}
    (hoff : s.enc.ctl.busy = false ∨ (s.enc.ctl.buffer = false ∧ a = false)) : encoderTurn a s = .next s := by
  rcases hoff with hb | ⟨hm, rfl⟩
  · simp [encoderTurn, hb]
  · simp [encoderTurn, hm]

/-- A turn of the encoder is its step on the encoder alone and what that step gives to the sink. -/
theorem encoderTurn_eq (a : Bool) (s : State) :
    encoderTurn a s = .next { s with enc := s.enc.turn a, sink := s.sink ++ s.enc.delivered (.encoder a) } := by
  obtain ⟨t, ht⟩ := encoderTurn_total a s
  rw [ht, ← encoderTurn_sink ht, ← encoderTurn_frame ht]

/-- A busy stream-mode encoder's turn with a sink that accepts (40_encoder R107). -/
theorem encoderTurn_stream {s : State} (hb : s.enc.ctl.busy = true) (hm : s.enc.ctl.buffer = false) :
    encoderTurn true s = .next { s with enc := encoderAdvance s.enc, sink := s.sink ++ [outByte s.enc.work] } := by
  rw [encoderTurn_eq]
  simp [Encoder.turn, Encoder.emit, Encoder.delivered, hb, hm]

/-- A busy buffer-mode encoder's turn, whatever the sink does (40_encoder R107). -/
theorem encoderTurn_buffer {s : State} (a : Bool) (hb : s.enc.ctl.busy = true) (hm : s.enc.ctl.buffer = true) :
    encoderTurn a s = .next { s with enc := encoderAdvance { s.enc with
      obuf := writeByte s.enc.obuf s.enc.ctl.cnt.toNat (outByte s.enc.work) } } := by
  rw [encoderTurn_eq, Encoder.delivered_buffer hm]
  simp [Encoder.turn, Encoder.emit, hb, hm]

/-- The encoder after a byte, in numbers: complete, or with the value divided by 128 (40_encoder R106, R108). -/
theorem encoderAdvance_eq (d : Encoder) :
    encoderAdvance d =
      if d.work.toNat < 128 then { d with
        ctl := { d.ctl with busy := false, done := true, err := .none, cnt := d.ctl.cnt + 1#4 } }
      else { d with
        ctl := { d.ctl with cnt := d.ctl.cnt + 1#4 }, work := BitVec.ofNat 64 (d.work.toNat / 128) } := by
  unfold encoderAdvance
  cases hm : moreBits d.work with
  | false =>
    rw [if_pos ((moreBits_eq_false_iff _).1 hm)]
    rfl
  | true =>
    have hshift : d.work >>> 7 = BitVec.ofNat 64 (d.work.toNat / 128) := by
      rw [← ushiftRight_seven_toNat, BitVec.ofNat_toNat, BitVec.setWidth_eq]
    rw [if_neg (Nat.not_lt.2 ((moreBits_iff _).1 hm)), ← hshift]
    rfl

/-- The emitted byte in numbers (40_encoder R106). -/
theorem outByte_eq_ofNat (v : Word) :
    outByte v = BitVec.ofNat 8 (if v.toNat < 128 then v.toNat else v.toNat % 128 + 128) := by
  rw [← outByte_toNat, BitVec.ofNat_toNat, BitVec.setWidth_eq]

/-! ### The decoder -/

theorem decoderTurn_stalled {a : Bool} {s : State}
    (hoff : s.dec.ctl.busy = false ∨ (s.dec.ctl.buffer = false ∧ a = false)) : decoderTurn a s = .next s := by
  rcases hoff with hb | ⟨hm, rfl⟩
  · simp [decoderTurn, hb]
  · simp [decoderTurn, hm]

/-- What the decoder's operation only reads: IBUF, DEC_ILEN and what its command latched (10_state R41). -/
structure Decoder.Keeps (d d' : Decoder) : Prop where
  ibuf : d'.ibuf = d.ibuf
  ilen : d'.ilen = d.ilen
  latched : d'.ctl.latched = d.ctl.latched

theorem Decoder.consume_keeps (x : Byte) (last : Bool) (d : Decoder) : d.Keeps (d.consume x last) := by
  rcases d.consume_cases x last with ⟨-, -, heq⟩ | ⟨-, -, -, heq⟩ | ⟨-, heq⟩ <;> rw [heq] <;> exact ⟨rfl, rfl, rfl⟩

theorem Decoder.turn_keeps (a : Bool) (r : Response) (d : Decoder) : d.Keeps (d.turn a r) := by
  unfold Decoder.turn
  split
  · cases r with
    | eoi => exact ⟨rfl, rfl, rfl⟩
    | byte x => exact d.consume_keeps x false
  · split
    · unfold Decoder.bufferStep
      split
      · exact ⟨rfl, rfl, rfl⟩
      · exact d.consume_keeps _ _
    · exact ⟨rfl, rfl, rfl⟩

/-- A turn of a buffer-mode decoder asks nothing of the source (41_decoder R144). -/
theorem sourceAfter_buffer {s : State} (h : s.dec.ctl.buffer = true) (e : Event) : sourceAfter e s = s := by
  rcases sourceAfter_cases e s with hsame | ⟨-, -, hstream, -⟩
  · exact hsame
  · simp [h] at hstream

end Sys2Proof.Machine
end

section
/-! The encoding byte by byte, and operands that are the same at both widths. -/

namespace Sys2Proof.Machine

/-- Byte `j` of an encoding is group `j` of the value, with C = 1 in all but the last (40_encoder R104). -/
theorem encodeUnsigned_getElem? (v : Word) : ∀ j, j < (encodeUnsigned v).length →
    (encodeUnsigned v)[j]? = some (BitVec.ofNat 8
      (v.toNat / 2 ^ (7 * j) % 128 + if j + 1 < (encodeUnsigned v).length then 128 else 0)) := by
  induction v using encode_induction with
  | last v hm =>
    have hsmall := (moreBits_eq_false_iff v).1 hm
    intro j hj
    rw [encodeUnsigned_last hm, List.length_singleton] at hj ⊢
    obtain rfl := Nat.lt_one_iff.1 hj
    rw [outByte_eq_ofNat, if_pos hsmall, if_neg (by omega)]
    simp [Nat.mod_eq_of_lt hsmall]
  | more v hm ih =>
    have hlarge := (moreBits_iff v).1 hm
    intro j hj
    rw [encodeUnsigned_more hm, List.length_cons] at hj ⊢
    cases j with
    | zero =>
      have hrest := List.length_pos_of_ne_nil (encodeUnsigned_ne_nil (v >>> 7))
      rw [outByte_eq_ofNat, if_neg (by omega), if_pos (by omega)]
      simp
    | succ j =>
      have hgroup : v.toNat / 128 / 2 ^ (7 * j) = v.toNat / 2 ^ (7 * (j + 1)) := by
        rw [Nat.div_div_eq_div_mul, Nat.mul_succ, Nat.pow_add, Nat.mul_comm (2 ^ (7 * j))]
      rw [List.getElem?_cons_succ, ih j (by omega), ushiftRight_seven_toNat, hgroup]
      simp

/-- The last of two or more bytes carries the value's highest bits, so it is not 0x00 (40_encoder R104). -/
theorem encodeUnsigned_getLast?_ne_zero {v : Word} (h : 2 ≤ encodedLen v) :
    (encodeUnsigned v).getLast? ≠ some 0x00#8 := by
  obtain ⟨k, hk, hroom⟩ := encodedLen_room v
  have htop : 0 < v.toNat / 2 ^ (7 * k) := by
    have htight := encodedLen_tight v (by omega)
    rw [hk, Nat.add_sub_cancel] at htight
    exact Nat.div_pos htight (Nat.two_pow_pos _)
  have hlow : v.toNat / 2 ^ (7 * k) < 128 := by
    rw [Nat.mul_succ, Nat.pow_add] at hroom
    exact Nat.div_lt_of_lt_mul hroom
  have hlen : (encodeUnsigned v).length = k + 1 := (encodeUnsigned_length v).trans hk
  rw [List.getLast?_eq_getElem?, hlen, Nat.add_sub_cancel, encodeUnsigned_getElem? v k (by omega), hlen,
    if_neg (Nat.lt_irrefl _)]
  intro hzero
  have hnum := congrArg BitVec.toNat (Option.some.inj hzero)
  rw [BitVec.toNat_ofNat, BitVec.toNat_ofNat] at hnum
  omega

theorem encodedLen_mono {x y : Word} (h : x.toNat ≤ y.toNat) : encodedLen x ≤ encodedLen y := by
  obtain ⟨k, hk, hroom⟩ := encodedLen_room y
  exact encodedLen_le (by omega) (hk ▸ Nat.lt_of_le_of_lt h hroom)

theorem encodedLen_operand_le (signed : Bool) (w : Width) (x : Word) :
    encodedLen (encoderOperand signed w x) ≤ maxBytes w :=
  encodedLen_le_maxBytes (encoderOperand_lt signed w x)

/-- An unsigned value of 32 bits is the same operand at both widths. -/
theorem encoderOperand_unsigned_widths {x : Word} (h : x.toNat < 2 ^ 32) :
    encoderOperand false .w32 x = encoderOperand false .w64 x := by
  apply BitVec.eq_of_toNat_eq
  rw [encoderOperand_unsigned, encoderOperand_unsigned, keepWidth_toNat, keepWidth_toNat]
  exact (Nat.mod_eq_of_lt h).trans (Nat.mod_eq_of_lt x.isLt).symm

/-- A 64-bit signed number in the 32-bit range reads the same from its low 32 bits (00_scope R10). -/
theorem toInt_setWidth_32 {x : Word} (hlo : -2 ^ 31 ≤ x.toInt) (hhi : x.toInt < 2 ^ 31) :
    (x.setWidth 32).toInt = x.toInt := by
  have hlow : (x.toNat : Int).bmod (2 ^ 32) = x.toInt.bmod (2 ^ 32) := by
    rw [BitVec.toInt_eq_toNat_bmod, Int.bmod_bmod_of_dvd (by decide)]
  rw [BitVec.toInt_setWidth, hlow]
  exact Int.bmod_eq_of_le (by omega) (by omega)

/-- A signed value in the 32-bit range is the same operand at both widths. -/
theorem encoderOperand_signed_widths {x : Word} (hlo : -2 ^ 31 ≤ x.toInt) (hhi : x.toInt < 2 ^ 31) :
    encoderOperand true .w32 x = encoderOperand true .w64 x := by
  have hnum : ∀ w : Width, (x.setWidth w.bits).toInt = x.toInt →
      ((encoderOperand true w x).toNat : Int) = if 0 ≤ x.toInt then 2 * x.toInt else -2 * x.toInt - 1 := fun w hw => by
    rw [encoderOperand_signed_toNat, zigzag_toNat _ w.bits_pos, hw]
  apply BitVec.eq_of_toNat_eq
  apply Int.ofNat_inj.1
  rw [hnum .w32 (toInt_setWidth_32 hlo hhi), hnum .w64 (congrArg BitVec.toInt x.setWidth_eq)]

end Sys2Proof.Machine
end

section
/-! A whole operation of the encoder: the state that a run of its turns, and of nothing else, comes to. -/

namespace Sys2Proof.Machine

/-! ### The working register -/

/-- The group that is left in `work` once every pending byte is emitted (40_encoder R106, R108). -/
def Encoder.lastGroup (d : Encoder) : Word := d.work >>> (7 * (d.pending.length - 1))

theorem Encoder.lastGroup_idle {d : Encoder} (h : d.ctl.busy = false) : d.lastGroup = d.work := by
  rw [Encoder.lastGroup, Encoder.pending_idle h]
  exact BitVec.ushiftRight_zero _

/-- Every step but the last shifts one group out, and the last leaves its group in place. -/
theorem Encoder.lastGroup_emit {d : Encoder} (hb : d.ctl.busy = true) : d.emit.lastGroup = d.lastGroup := by
  have hctl := d.emit_ctl
  have hwork := d.emit_work
  have hpending := Encoder.pending_emit hb
  cases hm : moreBits d.work with
  | false =>
    simp only [hm, Bool.false_eq_true, if_false] at hctl hwork
    have hidle : d.emit.ctl.busy = false := by rw [hctl]; rfl
    rw [Encoder.lastGroup_idle hidle, hwork, Encoder.lastGroup, hpending, Encoder.pending_idle hidle]
    exact (BitVec.ushiftRight_zero _).symm
  | true =>
    simp only [hm, if_true] at hctl hwork
    have hbusy : d.emit.ctl.busy = true := by rw [hctl]; exact hb
    rw [Encoder.lastGroup, Encoder.lastGroup, hwork, hpending, ← BitVec.shiftRight_add, List.length_cons,
      Encoder.pending_emit hbusy, List.length_cons, Nat.add_sub_cancel, Nat.add_sub_cancel]
    congr 1
    omega

theorem runEvent_lastGroup {e : Event} {s t : State} (hspare : sparesUnit .enc e = true)
    (h : runEvent e s = .next t) : t.enc.lastGroup = s.enc.lastGroup := by
  rcases runEvent_enc_cases hspare h with ⟨hb, -, henc, -⟩ | ⟨-, ⟨o, henc⟩, -⟩
  · rw [henc, Encoder.lastGroup_emit hb]
  · rw [henc]
    rfl

theorem runEvents_lastGroup {es : List Event} {s t : State} (hspare : ∀ e ∈ es, sparesUnit .enc e = true)
    (h : runEvents es s = .next t) : t.enc.lastGroup = s.enc.lastGroup :=
  runEvents_keeps (P := fun u => u.enc.lastGroup = s.enc.lastGroup)
    (fun _ _ _ he hu hrun => (runEvent_lastGroup he hrun).trans hu) es hspare rfl h

/-! ### A run of encoder turns -/

/-- What the encoder's turns leave alone: all but the encoder and the sink, and in the encoder OVR and what its command
latched (40_encoder R107). -/
structure State.EncoderFrame (s t : State) : Prop where
  state : t = { s with enc := t.enc, sink := t.sink }
  latched : t.enc.ctl.latched = s.enc.ctl.latched

theorem encoderTurn_encoderFrame {a : Bool} {s t : State} (h : encoderTurn a s = .next t) : s.EncoderFrame t := by
  rw [encoderTurn_eq] at h
  obtain rfl := Host.Outcome.next.inj h
  exact ⟨rfl, Encoder.turn_latched a s.enc⟩

theorem State.EncoderFrame.trans {s t u : State} (h : s.EncoderFrame t) (h' : t.EncoderFrame u) : s.EncoderFrame u := by
  refine ⟨?_, h'.latched.trans h.latched⟩
  rw [h'.state, h.state]

/-- The run of `n` encoder turns. -/
def encoderRun (n : Nat) (a : Bool) : List Event := List.replicate n (.encoder a)

theorem encoderRun_spares {n : Nat} {a : Bool} : ∀ e ∈ encoderRun n a, sparesUnit .enc e = true := by
  intro e he
  rw [List.eq_of_mem_replicate he]
  rfl

theorem encoderTurns_encoderRun {n : Nat} {a buffer : Bool} (h : (buffer || a) = true) :
    encoderTurns buffer (encoderRun n a) = n := by
  simp [encoderTurns, encoderRun, List.countP_replicate, runsEncoder, h]

theorem runEvents_encoderRun_total (a : Bool) : ∀ (n : Nat) (s : State), ∃ t, runEvents (encoderRun n a) s = .next t
  | 0, s => ⟨s, rfl⟩
  | n + 1, s => by
    obtain ⟨u, hu⟩ := encoderTurn_total a s
    obtain ⟨t, ht⟩ := runEvents_encoderRun_total a n u
    exact ⟨t, runEvents_cons_next.2 ⟨u, hu, ht⟩⟩

theorem runEvents_encoderRun_frame {a : Bool} {n : Nat} {s t : State} (h : runEvents (encoderRun n a) s = .next t) :
    s.EncoderFrame t := by
  refine runEvents_keeps (P := s.EncoderFrame) (q := fun e => e = .encoder a) (fun e u v he hu hrun => ?_) _
    (fun e => List.eq_of_mem_replicate) ⟨rfl, rfl⟩ h
  subst he
  exact hu.trans (encoderTurn_encoderFrame hrun)

/-- A state `s` with its encoder's operation completed: every pending byte emitted (40_encoder R108). -/
def State.encodeDone (s : State) : State :=
  { s with
    sink := s.encodeOutcome.sink
    enc := {
      ctl := { s.enc.ctl with busy := false, done := true, err := .none, cnt := s.encodeOutcome.cnt }
      work := s.enc.lastGroup
      obuf := s.encodeOutcome.obuf } }

/-- Given as many enabled turns as it has bytes to emit, the encoder completes its operation, and nothing else changes. -/
theorem runEvents_encoderRun {n : Nat} {a : Bool} {s : State} (hs : s.enc.Sound)
    (hon : (s.enc.ctl.buffer || a) = true) (hn : s.enc.pending.length ≤ n) :
    runEvents (encoderRun n a) s = .next s.encodeDone := by
  obtain ⟨t, ht⟩ := runEvents_encoderRun_total a n s
  have hidle : t.enc.ctl.busy = false := by
    refine Encoder.idle_of_pending_eq_nil (List.eq_nil_of_length_eq_zero ?_)
    rw [runEvents_pending_length encoderRun_spares ht, encoderTurns_encoderRun hon, Nat.sub_eq_zero_of_le hn]
  obtain ⟨herr, hdone⟩ := runEvents_sound encoderRun_spares hs ht
  rw [hidle, Bool.not_false] at hdone
  have hwork := runEvents_lastGroup encoderRun_spares ht
  rw [Encoder.lastGroup_idle hidle] at hwork
  have hout := runEvents_encodeOutcome encoderRun_spares ht
  rw [State.encodeOutcome_idle hidle] at hout
  obtain ⟨hstate, hlatched⟩ := runEvents_encoderRun_frame ht
  have hctl := Control.eq_of_latched hlatched
  rw [hidle, hdone, herr] at hctl
  rw [ht, hstate, State.encodeDone, ← hout, ← hwork, ← hctl]

/-! ### From the command to its end state -/

/-- The state that a VENC command comes to: the encoding of its operand in the sink or in OBUF (40_encoder R105 to R108). -/
def State.encoded (i : Instr) (s : State) : State :=
  let v := encoderOperand i.signed i.width s.encVal
  { s with
    sink := s.sink ++ if i.buffer then [] else encodeUnsigned v
    enc := {
      ctl := { busy := false, done := true, ovr := s.enc.ctl.ovr, err := .none, signed := i.signed, width := i.width,
               buffer := i.buffer, cnt := BitVec.ofNat 4 (encodedLen v) }
      work := v >>> (7 * (encodedLen v - 1))
      obuf := if i.buffer then storeBytes [] 0#4 (encodeUnsigned v) else s.enc.obuf } }

/-- The completion of a command just accepted is the command's end state. -/
theorem encodeDone_encoderInit (i : Instr) (s : State) :
    ({ s with enc := encoderInit i.signed i.width i.buffer s } : State).encodeDone = s.encoded i := by
  have hlen := encodeUnsigned_length (encoderOperand i.signed i.width s.encVal)
  have hlast : (encoderInit i.signed i.width i.buffer s).lastGroup = encoderOperand i.signed i.width s.encVal
      >>> (7 * ((encodeUnsigned (encoderOperand i.signed i.width s.encVal)).length - 1)) := rfl
  rw [State.encodeDone, encodeOutcome_encoderInit, State.encoded, hlast, encodedBytes, hlen]
  rfl

/-- A VENC command issued to an idle encoder, with as many enabled turns as its encoding has bytes, comes to its end state. -/
theorem runEvents_issue_encoderRun {i : Instr} {s : State} {n : Nat} {a : Bool} (hi : i.unit = .enc)
    (hidle : s.enc.ctl.busy = false) (hon : (i.buffer || a) = true)
    (hn : encodedLen (encoderOperand i.signed i.width s.encVal) ≤ n) :
    runEvents (issue i :: encoderRun n a) s = .next (s.encoded i) := by
  have hrun : runEvents (encoderRun n a) { s with enc := encoderInit i.signed i.width i.buffer s }
      = .next (s.encoded i) := by
    rw [← encodeDone_encoderInit]
    exact runEvents_encoderRun ⟨rfl, rfl⟩ hon (encodeUnsigned_length _ ▸ hn)
  exact runEvents_cons_next.2 ⟨_, (runEvent_issue i s).trans (exec_enc_idle hi hidle), hrun⟩

/-! ### OBUF after the command -/

theorem memWf_storeBytes : ∀ {m : Mem} (k : Count) (bs : List Byte), memWf m = true → memWf (storeBytes m k bs) = true
  | _, _, [], h => h
  | _, k, b :: bs, h => memWf_storeBytes (k + 1#4) bs (memWf_writeByte _ b h)

/-- OBUF after a buffer-mode command: the encoding, then zeros (40_encoder R107). -/
theorem readByte_storeBytes_encodeUnsigned (v : Word) (k : Nat) :
    readByte (storeBytes [] 0#4 (encodeUnsigned v)) k = (encodeUnsigned v).getD k 0x00#8 := by
  have hlen := encodeUnsigned_length_le_ten v
  rw [readByte_storeBytes memWf_nil (by simpa using hlen) k]
  rfl

theorem toNat_ofNat_encodedLen (v : Word) : (BitVec.ofNat 4 (encodedLen v)).toNat = (encodeUnsigned v).length := by
  have hlen := encodeUnsigned_length_le_ten v
  rw [BitVec.toNat_ofNat, ← encodeUnsigned_length]
  exact Nat.mod_eq_of_lt (by omega)

/-- A buffer that reads as `bs` from index 0 on holds `bs` in its first bytes. -/
theorem bufferBytes_eq {m : Mem} {bs : List Byte} (h : ∀ k, readByte m k = bs.getD k 0x00#8) :
    bufferBytes m bs.length = bs := by
  refine List.ext_getElem (bufferBytes_length m _) fun k hk hk' => ?_
  rw [← Option.some_inj, ← List.getElem?_eq_getElem hk, bufferBytes_getElem? m _ k hk', h k,
    List.getD_eq_getElem _ _ hk']

end Sys2Proof.Machine
end

section
/-! The obligations of 40_encoder. -/

open Sys2Proof Sys2Proof.Machine

/-- Settles O33: the end state of a VENC command, in stream mode. -/
theorem streamEncodeWhole : Obligations.StreamEncodeWhole := by
  unfold Obligations.StreamEncodeWhole
  intro i s n hi hbuf hidle v hn
  have hrun := runEvents_issue_encoderRun (a := true) hi hidle (Bool.or_true _) hn
  rw [State.encoded, hbuf] at hrun
  exact hrun

/-- Settles O34: the end state of a VENC command, in buffer mode, where the bytes stored one after the other are OBUF. -/
theorem bufferEncodeWhole : Obligations.BufferEncodeWhole := by
  unfold Obligations.BufferEncodeWhole
  intro i s n a hi hbuf hidle v hn
  have hrun := runEvents_issue_encoderRun (a := a) hi hidle (by simp [hbuf]) hn
  simp only [State.encoded, hbuf, if_true, List.append_nil] at hrun
  exact ⟨storeBytes [] 0#4 (encodeUnsigned v), hrun, memWf_storeBytes _ _ memWf_nil,
    readByte_storeBytes_encodeUnsigned v⟩

/-- Settles O24: a turn whose byte goes to the sink, in numbers. -/
theorem encoderStreamStep : Obligations.EncoderStreamStep := by
  unfold Obligations.EncoderStreamStep
  intro s hb hm
  rw [runEvent, encoderTurn_stream hb hm, encoderAdvance_eq, outByte_eq_ofNat]

/-- Settles O25: a turn whose byte goes to OBUF, in numbers; the buffer is the one the byte write leaves. -/
theorem encoderBufferStep : Obligations.EncoderBufferStep := by
  unfold Obligations.EncoderBufferStep
  intro s a hb hm
  refine ⟨writeByte s.enc.obuf s.enc.ctl.cnt.toNat (outByte s.enc.work), ?_, fun k hk => readByte_writeByte_ne hk,
    memWf_writeByte _ _, fun hwf hk => ?_, writeByte_beyond _ _⟩
  · rw [runEvent, encoderTurn_buffer a hb hm, encoderAdvance_eq]
  · rw [← outByte_eq_ofNat]
    exact readByte_writeByte_same _ hwf hk

/-- Settles O27, from what each unit's turn keeps of the unit and of the streams. -/
theorem turnFrames : Obligations.TurnFrames := by
  unfold Obligations.TurnFrames
  intro a s t
  constructor
  · intro hrun
    obtain ⟨hstate, hlatched⟩ := encoderTurn_encoderFrame hrun
    refine ⟨hstate, fun hbuf => ?_, fun hstream => ?_, Control.fields_of_latched hlatched⟩
    · rw [encoderTurn_sink hrun, Encoder.delivered_buffer hbuf, List.append_nil]
    · rw [(runEvent_agentStep hrun).enc]
      exact Encoder.turn_obuf_stream hstream a
  · intro hrun
    obtain ⟨hibuf, hilen, hlatched⟩ := s.dec.turn_keeps a (sourceRead s).1
    rw [decoderTurn_frame hrun]
    refine ⟨?_, fun hbuf => ?_, hibuf, hilen, Control.fields_of_latched hlatched⟩
    · rw [sourceAfter_frame]
    · rw [sourceAfter_buffer hbuf]
      exact ⟨rfl, rfl⟩

/-- Settles O28: the shift by W - 1 is the sign bit spread over the word, and complementing is -x - 1. -/
theorem zigzagIntegers : Obligations.ZigzagIntegers := by
  unfold Obligations.ZigzagIntegers
  intro n x hn
  refine ⟨zigzag_toNat x hn, rfl, ?_⟩
  rw [zigzag_eq, BitVec.msb_eq_getLsbD_last]

/-- Settles O31: byte by byte along the encoding, and what follows for its length and its last byte. -/
theorem encodeClosedForm : Obligations.EncodeClosedForm := by
  unfold Obligations.EncodeClosedForm
  refine ⟨fun v j hj => ?_, fun v w hv => ?_, encodeUnsigned_last rfl, fun v => encodeUnsigned_getLast?_ne_zero,
    fun x hx => congrArg encodeUnsigned (encoderOperand_unsigned_widths hx), fun x y hxy => encodedLen_mono hxy.le⟩
  · rw [← encodeUnsigned_length] at hj ⊢
    exact encodeUnsigned_getElem? v j hj
  · exact ⟨List.length_pos_of_ne_nil (encodeUnsigned_ne_nil v), encodeUnsigned_length v ▸ encodedLen_le_maxBytes hv⟩

/-- Settles O36: both modes end with the encoding of the same operand, which both widths share in the common range. -/
theorem encodeParity : Obligations.EncodeParity := by
  unfold Obligations.EncodeParity
  refine ⟨fun i j s t u hi hj hsigned hwidth hstream hbuf hidle ht hu => ?_,
    fun x hx => congrArg encodeUnsigned (encoderOperand_unsigned_widths hx),
    fun x hlo hhi => congrArg encodeUnsigned (encoderOperand_signed_widths hlo hhi)⟩
  have hlen := encodedLen_operand_le i.signed i.width s.encVal
  have ht' := runEvents_issue_encoderRun (a := true) hi hidle (Bool.or_true _) hlen
  have hu' := runEvents_issue_encoderRun (n := maxBytes i.width) (a := true) hj hidle (Bool.or_true _)
    (by rwa [← hsigned, ← hwidth])
  obtain rfl := Host.Outcome.next.inj (ht.symm.trans ht')
  obtain rfl := Host.Outcome.next.inj (hu.symm.trans hu')
  simp only [State.encoded, ← hsigned, ← hwidth, hstream, hbuf, Bool.false_eq_true, if_false, if_true,
    toNat_ofNat_encodedLen]
  rw [bufferBytes_eq (readByte_storeBytes_encodeUnsigned _)]

/-- Settles O4: an idle encoder's acceptance, and that a turn is a function of the encoder and the sink. -/
theorem vencAccepted : Obligations.VencAccepted := by
  unfold Obligations.VencAccepted
  refine ⟨fun _ _ => exec_enc_idle, fun a s t x hrun => ?_⟩
  obtain rfl := Host.Outcome.next.inj ((encoderTurn_eq a s).symm.trans hrun)
  exact encoderTurn_eq a { s with encVal := x }

/-- Settles O26, unit by unit. -/
theorem stalledTurns : Obligations.StalledTurns := by
  unfold Obligations.StalledTurns
  exact fun _ _ => ⟨encoderTurn_stalled, decoderTurn_stalled⟩

end

section
/-! One turn of the decoder on one byte, in numbers, and on the source's free answer. -/

namespace Sys2Proof.Machine

/-- A busy stream-mode decoder's turn with a source that answers (41_decoder R143). -/
theorem decoderTurn_stream {s : State} (hb : s.dec.ctl.busy = true) (hm : s.dec.ctl.buffer = false) :
    decoderTurn true s = .next { (sourceRead s).2 with dec := s.dec.answer (sourceRead s).1 } := by
  simp [decoderTurn, hb, hm, decoderStream_eq]

/-- A busy buffer-mode decoder's turn, whatever the source does (41_decoder R144). -/
theorem decoderTurn_buffer {s : State} (a : Bool) (hb : s.dec.ctl.busy = true) (hm : s.dec.ctl.buffer = true) :
    decoderTurn a s = .next { s with dec := s.dec.bufferStep } := by
  simp [decoderTurn, hb, hm, decoderBuffer_eq]

/-- A turn in which the decoder takes the byte `x` consumes it (41_decoder R143, R144). -/
theorem decoderTurn_of_takesByte {s u : State} {a last : Bool} {x : Byte} (h : TakesByte s a x last u) :
    decoderTurn a s = .next { u with dec := s.dec.consume x last } := by
  obtain ⟨hb, ⟨hm, rfl, rfl, hsrc, rfl⟩ | ⟨hm, hk, rfl, rfl, rfl⟩⟩ := h
  · obtain ⟨rest, hrest⟩ : ∃ rest, s.source = .byte x :: rest := List.head?_eq_some_iff.1 hsrc
    have hread : sourceRead s = (.byte x, { s with source := s.source.tail }) := by rw [sourceRead, hrest]; rfl
    rw [decoderTurn_stream hb hm, hread]
    rfl
  · rw [decoderTurn_buffer a hb hm, Decoder.bufferStep, if_neg (Nat.not_le.2 hk)]

/-- The counter stands at MAXB(W) only after the MAXB(W)-th byte: where it wraps it is 0. -/
theorem count_ne_maxBytes {d : Decoder} (h : d.ctl.cnt.toNat + 1 ≠ maxBytes d.ctl.width) :
    d.ctl.count.cnt.toNat ≠ maxBytes d.ctl.width := by
  have hpos := maxBytes_pos d.ctl.width
  have hten := maxBytes_le_ten d.ctl.width
  have hcnt := d.ctl.cnt.isLt
  rw [Control.count_cnt, BitVec.toNat_add, BitVec.toNat_ofNat]
  omega

theorem Decoder.consume_continue {d : Decoder} {x : Byte} (hc : contBit x = true)
    (hmax : d.ctl.count.cnt.toNat ≠ maxBytes d.ctl.width) : d.consume x false = continueInput (countInput d) x := by
  rcases d.consume_cases x false with ⟨-, heq, -⟩ | ⟨-, -, -, heq⟩ | ⟨hend, -⟩
  · exact absurd heq hmax
  · exact heq
  · simp [hc] at hend

theorem Decoder.consume_finish {d : Decoder} {x : Byte} {last : Bool}
    (hend : contBit x = false ∨ (d.ctl.count.cnt.toNat ≠ maxBytes d.ctl.width ∧ last = true)) :
    d.consume x last = finishInput (countInput d) x := by
  rcases d.consume_cases x last with ⟨hc, hmax, -⟩ | ⟨hc, -, hlast, -⟩ | ⟨-, heq⟩
  · exact absurd hmax (hend.resolve_left (by simp [hc])).1
  · simp [hc, hlast] at hend
  · exact heq

/-- The accumulator in numbers (41_decoder R146, R147). -/
theorem accumulate_eq_ofNat (w : Width) (acc : Word) (off : BitVec 7) (x : Byte) :
    accumulate w acc off x =
      BitVec.ofNat 64 ((acc.toNat ||| (x.toNat % 128) <<< off.toNat) % 2 ^ w.bits) := by
  rw [← accumulate_toNat, BitVec.ofNat_toNat, BitVec.setWidth_eq]

/-- With the list of responses used up, the source reads as if its free answer stood in the list (log entry 4). -/
theorem sourceRead_free {s : State} (h : s.source = []) :
    sourceRead s = sourceRead { s with source := [Config.freeResponse s.sourcePos], sourcePos := s.sourcePos + 1 } := by
  cases s
  cases h
  rfl

/-- A stream-mode step is a function of the decoder and of what SourceRead answers and leaves (41_decoder R143). -/
theorem decoderTurn_stream_congr {s s' : State} (hb : s.dec.ctl.busy = true) (hm : s.dec.ctl.buffer = false)
    (hread : sourceRead s' = sourceRead s) (hdec : s'.dec = s.dec) : decoderTurn true s' = decoderTurn true s := by
  rw [decoderTurn_stream hb hm, decoderTurn_stream (hdec ▸ hb) (hdec ▸ hm), hread, hdec]

end Sys2Proof.Machine
end

section
/-! The whole decode of 41_decoder R152, case by case, and its raw value group by group. -/

namespace Sys2Proof.Machine

/-! ### The bytes with C = 1 at the front of an input -/

theorem contRun_le_length : ∀ xs : List Byte, contRun xs ≤ xs.length
  | [] => Nat.le_refl 0
  | b :: xs => by
    rw [contRun]
    split
    · exact Nat.succ_le_succ (contRun_le_length xs)
    · exact Nat.zero_le _

/-- A byte with C = 1 right behind a run of such bytes belongs to the run. -/
theorem lt_contRun : ∀ {xs : List Byte} {k : Nat} {x : Byte}, k ≤ contRun xs → xs[k]? = some x → contBit x = true →
    k < contRun xs
  | b :: xs, 0, x, _, hx, hc => by
    obtain rfl := Option.some.inj hx
    rw [contRun, if_pos hc]
    exact Nat.succ_pos _
  | b :: xs, k + 1, x, hk, hx, hc => by
    rw [contRun] at hk ⊢
    split at hk
    · next hb =>
      rw [if_pos hb]
      exact Nat.succ_lt_succ (lt_contRun (Nat.le_of_succ_le_succ hk) hx hc)
    · omega

/-- A byte with C = 0 right behind a run of bytes with C = 1 ends the run. -/
theorem contRun_eq_of_terminator : ∀ {xs : List Byte} {k : Nat} {x : Byte}, k ≤ contRun xs → xs[k]? = some x →
    contBit x = false → contRun xs = k
  | b :: xs, 0, x, _, hx, hc => by
    obtain rfl := Option.some.inj hx
    rw [contRun, if_neg (by simp [hc])]
  | b :: xs, k + 1, x, hk, hx, hc => by
    rw [contRun] at hk ⊢
    split at hk
    · next hb => rw [if_pos hb, contRun_eq_of_terminator (Nat.le_of_succ_le_succ hk) hx hc]
    · omega

/-! ### The raw value -/

theorem rawOf_toNat (w : Width) (xs : List Byte) : (rawOf w xs).toNat = varintValue xs % 2 ^ w.bits := by
  have hle : 2 ^ w.bits ≤ 2 ^ 64 := Nat.pow_le_pow_right (by decide) (by cases w <;> decide)
  have hlt : varintValue xs % 2 ^ w.bits < 2 ^ w.bits := Nat.mod_lt _ (Nat.two_pow_pos _)
  rw [rawOf, BitVec.toNat_ofNat, Nat.mod_eq_of_lt (hlt.trans_le hle)]

theorem varintValue_take_succ : ∀ {xs : List Byte} {k : Nat} {x : Byte}, xs[k]? = some x →
    varintValue (xs.take (k + 1)) = 2 ^ (7 * k) * (group x).toNat + varintValue (xs.take k)
  | b :: xs, 0, x, hx => by
    obtain rfl := Option.some.inj hx
    simp [varintValue]
  | b :: xs, k + 1, x, hx => by
    have ih := varintValue_take_succ (xs := xs) (k := k) hx
    rw [List.take_succ_cons, List.take_succ_cons, varintValue, varintValue, ih, Nat.mul_succ, Nat.pow_add]
    ring

/-- Accumulating the next group gives the raw value of one byte more (41_decoder R146, R147). -/
theorem accumulate_rawOf {w : Width} {xs : List Byte} {k : Nat} {x : Byte} {off : BitVec 7} (hx : xs[k]? = some x)
    (hoff : off.toNat = 7 * k) : accumulate w (rawOf w (xs.take k)) off x = rawOf w (xs.take (k + 1)) := by
  have hlow : varintValue (xs.take k) < 2 ^ (7 * k) := (varintValue_lt _).trans_le
    (Nat.pow_le_pow_right (by decide) (Nat.mul_le_mul_left 7 (List.length_take_le k xs)))
  have hshift : (x.toNat % 128) <<< (7 * k) = 2 ^ (7 * k) * (group x).toNat := by
    rw [group_toNat, Nat.shiftLeft_eq, Nat.mul_comm]
  apply BitVec.eq_of_toNat_eq
  rw [accumulate_toNat, rawOf_toNat, rawOf_toNat, varintValue_take_succ hx, hoff, hshift,
    Nat.two_pow_add_eq_or_of_lt hlow, Nat.or_mod_two_pow, Nat.mod_mod, ← Nat.or_mod_two_pow, Nat.or_comm]

/-! ### The four outcomes -/

theorem decodeWhole_malformed {w : Width} {xs : List Byte} (buffer : Bool) (h : maxBytes w ≤ contRun xs) :
    decodeWhole w buffer xs = .malformed (maxBytes w) := if_pos h

theorem decodeWhole_terminator {w : Width} {xs : List Byte} (buffer : Bool) (hmax : contRun xs < maxBytes w)
    (h : contRun xs < xs.length) :
    decodeWhole w buffer xs = .success (rawOf w (xs.take (contRun xs + 1))) (contRun xs + 1) := by
  rw [decodeWhole, if_neg (Nat.not_le.2 hmax), if_pos h]

/-- The last byte of a buffer ends the varint (41_decoder R147). -/
theorem decodeWhole_lastByte {w : Width} {xs : List Byte} (hmax : contRun xs < maxBytes w) (h : contRun xs = xs.length)
    (hne : xs ≠ []) : decodeWhole w true xs = .success (rawOf w xs) xs.length := by
  have hlast : (true && !xs.isEmpty) = true := by simpa using hne
  rw [decodeWhole, if_neg (Nat.not_le.2 hmax), if_neg (by omega), if_pos hlast]

theorem decodeWhole_endOfInput {w : Width} {buffer : Bool} {xs : List Byte} (hmax : contRun xs < maxBytes w)
    (h : contRun xs = xs.length) (hempty : buffer = true → xs = []) : decodeWhole w buffer xs = .endOfInput xs.length := by
  have hnone : (buffer && !xs.isEmpty) = false := by
    cases buffer with
    | false => rfl
    | true => simp [hempty rfl]
  rw [decodeWhole, if_neg (Nat.not_le.2 hmax), if_neg (by omega), if_neg (by simp [hnone])]

end Sys2Proof.Machine
end

section
/-! A decode in progress: where the decoder stands in its input, and what its next step makes of that. -/

namespace Sys2Proof.Machine

/-- The decoder after it has taken what stands at its place in the input `xs`: a byte, or the end (41_decoder R143, R144). -/
def Decoder.inputStep (buffer : Bool) (xs : List Byte) (d : Decoder) : Decoder :=
  match xs[d.ctl.cnt.toNat]? with
  | some x => d.consume x (buffer && decide (d.ctl.cnt.toNat + 1 = xs.length))
  | none => d.fail .endOfInput

theorem Decoder.inputStep_byte {buffer : Bool} {xs : List Byte} {d : Decoder} {x : Byte}
    (h : xs[d.ctl.cnt.toNat]? = some x) :
    d.inputStep buffer xs = d.consume x (buffer && decide (d.ctl.cnt.toNat + 1 = xs.length)) := by
  rw [Decoder.inputStep, h]

theorem Decoder.inputStep_end {buffer : Bool} {xs : List Byte} {d : Decoder} (h : xs.length ≤ d.ctl.cnt.toNat) :
    d.inputStep buffer xs = d.fail .endOfInput := by
  rw [Decoder.inputStep, List.getElem?_eq_none h]

/-- In buffer mode the input is IBUF[0 .. L-1] (41_decoder R144). -/
theorem Decoder.bufferStep_eq (d : Decoder) :
    d.bufferStep = d.inputStep true (bufferBytes d.ibuf (effectiveLen d.ilen)) := by
  have hlen := bufferBytes_length d.ibuf (effectiveLen d.ilen)
  unfold Decoder.bufferStep
  split
  · next hend => rw [Decoder.inputStep_end (hlen.trans_le hend)]
  · next hk => rw [Decoder.inputStep_byte (bufferBytes_getElem? _ _ _ (Nat.not_le.1 hk)), hlen, Bool.true_and]

/-- What the source answers at place `k` when it gives the bytes `xs` and then end-of-input. -/
def responseAt (xs : List Byte) (k : Nat) : Response := xs[k]?.elim .eoi .byte

/-- In stream mode the input is what the source gives (41_decoder R143). -/
theorem Decoder.answer_responseAt (xs : List Byte) (d : Decoder) :
    d.answer (responseAt xs d.ctl.cnt.toNat) = d.inputStep false xs := by
  unfold responseAt Decoder.inputStep
  cases xs[d.ctl.cnt.toNat]? <;> rfl

/-- As far as a decode goes on, the source answers with what stands at that place (41_decoder R152). -/
theorem SourceGives.drop_eq {w : Width} {src : List Response} {xs : List Byte} {k : Nat} (h : SourceGives w src xs)
    (hmax : k < maxBytes w) (hrun : k ≤ contRun xs) : src.drop k = responseAt xs k :: src.drop (k + 1) := by
  obtain ⟨hbytes, hend⟩ := h
  have hget : src[k]? = some (responseAt xs k) := by
    unfold responseAt
    by_cases hk : k < xs.length
    · rw [← List.getElem?_take_of_lt hk, hbytes, List.getElem?_map, List.getElem?_eq_getElem hk]
      rfl
    · have hle := contRun_le_length xs
      obtain rfl : k = xs.length := by omega
      rw [List.getElem?_eq_none (Nat.le_refl _)]
      exact hend.resolve_right (by omega)
  obtain ⟨hlt, heq⟩ := List.getElem?_eq_some_iff.1 hget
  rw [List.drop_eq_getElem_cons hlt, heq]

/-- The decoder runs the command `i` on the input `xs` and has taken its first `k` bytes, all with C = 1 (41_decoder R145,
R146); DEC_RESULT is still `r`. -/
structure Decoder.Reading (i : Instr) (xs : List Byte) (r : Word) (k : Nat) (d : Decoder) : Prop where
  busy : d.ctl.busy = true
  signed : d.ctl.signed = i.signed
  width : d.ctl.width = i.width
  buffer : d.ctl.buffer = i.buffer
  cnt : d.ctl.cnt.toNat = k
  acc : d.acc = rawOf i.width (xs.take k)
  off : d.off.toNat = 7 * k
  result : d.result = r
  below : k < maxBytes i.width
  continued : k ≤ contRun xs
  inside : i.buffer = true → k = 0 ∨ k < xs.length

/-- The command `i` has ended with the outcome of the whole decode of `xs`, DEC_RESULT having been `r` (41_decoder R152). -/
structure Decoder.Reported (i : Instr) (xs : List Byte) (r : Word) (d : Decoder) : Prop where
  reports : Reports d r (decodeWhole i.width i.buffer xs)
  signed : d.ctl.signed = i.signed
  width : d.ctl.width = i.width

variable {i : Instr} {xs : List Byte} {r : Word} {k : Nat} {d : Decoder}

theorem Decoder.Reading.init (i : Instr) (xs : List Byte) (d : Decoder) :
    (decoderInit i.signed i.width i.buffer d).Reading i xs d.result 0 where
  busy := rfl
  signed := rfl
  width := rfl
  buffer := rfl
  cnt := rfl
  acc := by rw [decoderInit_acc, List.take_zero, rawOf, varintValue, Nat.zero_mod]
  off := rfl
  result := rfl
  below := maxBytes_pos i.width
  continued := Nat.zero_le _
  inside := fun _ => .inl rfl

theorem Decoder.Reading.count (h : d.Reading i xs r k) : d.ctl.count.cnt.toNat = k + 1 := by
  rw [Control.count_cnt_toNat (h.cnt ▸ h.width ▸ h.below), h.cnt]

theorem Decoder.Reading.accumulate_eq (h : d.Reading i xs r k) {x : Byte} (hx : xs[k]? = some x) :
    accumulate d.ctl.width d.acc d.off x = rawOf i.width (xs.take (k + 1)) := by
  rw [h.width, h.acc, accumulate_rawOf hx h.off]

/-- The MAXB(W)-th byte with C = 1 is the malformed outcome (41_decoder R145). -/
theorem Decoder.Reading.malformed (h : d.Reading i xs r k) {x : Byte} (hx : xs[k]? = some x) (hc : contBit x = true)
    (hmax : k + 1 = maxBytes i.width) :
    ({ d with ctl := d.ctl.count.complete .malformedVarint } : Decoder).Reported i xs r
      ∧ responsesTaken (decodeWhole i.width i.buffer xs) = k + 1 := by
  have hout := decodeWhole_malformed i.buffer (w := i.width) (xs := xs) (hmax ▸ lt_contRun h.continued hx hc)
  refine ⟨⟨?_, h.signed, h.width⟩, ?_⟩
  · rw [hout]
    exact ⟨rfl, rfl, rfl, h.count.trans hmax, h.result⟩
  · rw [hout, hmax]
    rfl

/-- Any other byte with C = 1, unless it is the buffer's last, brings the decode one byte on (41_decoder R146). -/
theorem Decoder.Reading.continues (h : d.Reading i xs r k) {x : Byte} (hx : xs[k]? = some x) (hc : contBit x = true)
    (hmax : k + 1 ≠ maxBytes i.width) (hlast : i.buffer = true → k + 1 ≠ xs.length) :
    (continueInput (countInput d) x).Reading i xs r (k + 1) where
  busy := h.busy
  signed := h.signed
  width := h.width
  buffer := h.buffer
  cnt := h.count
  acc := h.accumulate_eq hx
  off := by
    have hoff := h.off
    have hbelow := h.below
    have hten := maxBytes_le_ten i.width
    rw [continueInput_off, countInput_off, BitVec.toNat_add, BitVec.toNat_ofNat]
    omega
  result := h.result
  below := by
    have hbelow := h.below
    omega
  continued := lt_contRun h.continued hx hc
  inside := fun hbuf => by
    have hlt := (List.getElem?_eq_some_iff.1 hx).1
    have hne := hlast hbuf
    omega

/-- A byte with C = 0, or the buffer's last byte, is the successful outcome (41_decoder R147, R148). -/
theorem Decoder.Reading.finish (h : d.Reading i xs r k) {x : Byte} (hx : xs[k]? = some x)
    (hend : contBit x = false ∨ (k + 1 ≠ maxBytes i.width ∧ i.buffer = true ∧ k + 1 = xs.length)) :
    (finishInput (countInput d) x).Reported i xs r ∧ responsesTaken (decodeWhole i.width i.buffer xs) = k + 1 := by
  have hbelow := h.below
  have hlt := (List.getElem?_eq_some_iff.1 hx).1
  have hout : decodeWhole i.width i.buffer xs = .success (rawOf i.width (xs.take (k + 1))) (k + 1) := by
    cases hc : contBit x with
    | false =>
      have hrun := contRun_eq_of_terminator h.continued hx hc
      rw [decodeWhole_terminator i.buffer (hrun ▸ hbelow) (hrun ▸ hlt), hrun]
    | true =>
      obtain ⟨hmax, hbuf, hlen⟩ := hend.resolve_left (by simp [hc])
      have hrun := lt_contRun h.continued hx hc
      have hle := contRun_le_length xs
      rw [hbuf, hlen, List.take_length]
      exact decodeWhole_lastByte (by omega) (by omega) (List.ne_nil_of_length_pos (by omega))
  refine ⟨⟨?_, h.signed, h.width⟩, by rw [hout]; rfl⟩
  rw [hout]
  refine ⟨rfl, rfl, rfl, h.count, ?_⟩
  rw [finishInput_result]
  exact congrArg _ (h.accumulate_eq hx)

/-- The end of the input, where a byte is needed, is the end-of-input outcome (41_decoder R143, R144). -/
theorem Decoder.Reading.fail (h : d.Reading i xs r k) (hend : xs.length ≤ k) :
    (d.fail .endOfInput).Reported i xs r ∧ responsesTaken (decodeWhole i.width i.buffer xs) = k + 1 := by
  have hrun := h.continued
  have hbelow := h.below
  have hle := contRun_le_length xs
  have hempty : i.buffer = true → xs = [] := fun hbuf => by
    have hin := h.inside hbuf
    exact List.eq_nil_of_length_eq_zero (by omega)
  have hout := decodeWhole_endOfInput (w := i.width) (xs := xs) (by omega) (by omega) hempty
  have hlen : xs.length = k := by omega
  refine ⟨⟨?_, h.signed, h.width⟩, ?_⟩
  · rw [hout, hlen]
    exact ⟨rfl, rfl, rfl, h.cnt, h.result⟩
  · rw [hout, hlen]
    rfl

/-- A step on the input brings the decode one byte on, or ends it with the outcome of the whole decode. -/
theorem Decoder.Reading.step (h : d.Reading i xs r k) :
    (d.inputStep i.buffer xs).Reading i xs r (k + 1) ∨
    ((d.inputStep i.buffer xs).Reported i xs r ∧ responsesTaken (decodeWhole i.width i.buffer xs) = k + 1) := by
  by_cases hk : k < xs.length
  · have hx : xs[k]? = some xs[k] := List.getElem?_eq_getElem hk
    have hcases := d.consume_cases xs[k] (i.buffer && decide (k + 1 = xs.length))
    rw [h.count, h.width] at hcases
    rw [Decoder.inputStep_byte (by rwa [h.cnt]), h.cnt]
    rcases hcases with ⟨hc, hmax, heq⟩ | ⟨hc, hmax, hlast, heq⟩ | ⟨hend, heq⟩
    · exact .inr (heq ▸ h.malformed hx hc hmax)
    · exact .inl (heq ▸ h.continues hx hc hmax (by simpa using hlast))
    · exact .inr (heq ▸ h.finish hx (by simpa using hend))
  · rw [Decoder.inputStep_end (by rw [h.cnt]; omega)]
    exact .inr (h.fail (Nat.not_lt.1 hk))

end Sys2Proof.Machine
end

section
/-! A decode under every interleaving: no agent step that spares the decoder brings it anywhere but on along its input. -/

namespace Sys2Proof.Machine

/-! ### What an agent step takes from the source -/

/-- `t` is `s` as far as the source goes, with `n` of the listed responses taken. -/
structure State.HasTaken (n : Nat) (s t : State) : Prop where
  source : t.source = s.source.drop n
  sourcePos : t.sourcePos = s.sourcePos

theorem State.HasTaken.zero {s t : State} (hsrc : t.source = s.source) (hpos : t.sourcePos = s.sourcePos) :
    s.HasTaken 0 t := ⟨hsrc, hpos⟩

theorem State.HasTaken.trans {m n : Nat} {s t u : State} (h : s.HasTaken m t) (h' : t.HasTaken n u) :
    s.HasTaken (m + n) u :=
  ⟨by rw [h'.source, h.source, List.drop_drop], h'.sourcePos.trans h.sourcePos⟩

theorem hasTaken_of_sourceAfter_eq {e : Event} {s t : State} (h : runEvent e s = .next t) (hsame : sourceAfter e s = s) :
    s.HasTaken 0 t := by
  have hstep := runEvent_agentStep h
  exact .zero (by rw [hstep.source, hsame]) (by rw [hstep.sourcePos, hsame])

theorem sourceAfter_of_not_turn {e : Event} (h : ∀ a, e ≠ .decoder a) (s : State) : sourceAfter e s = s := by
  rcases sourceAfter_cases e s with hsame | ⟨he, -⟩
  · exact hsame
  · exact absurd he (h true)

theorem sourceAfter_idle {s : State} (h : s.dec.ctl.busy = false) (e : Event) : sourceAfter e s = s := by
  rcases sourceAfter_cases e s with hsame | ⟨-, hb, -⟩
  · exact hsame
  · simp [h] at hb

/-! ### What an agent step that spares the decoder makes of a busy one -/

/-- The decoder with another OVR. -/
def Decoder.withOvr (o : Bool) (d : Decoder) : Decoder := { d with ctl := { d.ctl with ovr := o } }

theorem Decoder.store_ovr {r : HostReg} (h : r.isDecoderInput = false) (v : Word) (d : Decoder) :
    ∃ o, d.store r v = d.withOvr o := by
  cases r with
  | decStatus => exact ⟨_, by rw [Decoder.store, Control.statusWrite_eq]; rfl⟩
  | decIbufLo | decIbufHi | decIlen => exact absurd h.symm Bool.false_ne_true
  | cmd | encVal | encStatus | encLen | encObufLo | encObufHi | decLen | decResult | reserved => exact ⟨d.ctl.ovr, rfl⟩

/-- While the decoder is busy, a host write that spares it reaches at most its OVR: a write to its input registers is the
hazard (70_reset_and_hazards R234). -/
theorem Decoder.after_hostWrite_busy {n : RegNo} {v : Word} {s t : State}
    (hspare : sparesUnit .dec (.hostWrite n v) = true) (hb : s.dec.ctl.busy = true)
    (h : runEvent (.hostWrite n v) s = .next t) : ∃ o, t.dec = s.dec.withOvr o := by
  have hstep := runEvent_agentStep h
  by_cases hr : hostReg n = .cmd
  · have henc : addressedUnit v = .enc := by
      cases hu : addressedUnit v with
      | enc => rfl
      | dec => exact absurd hu (addressedUnit_ne_of_spares hspare hr)
    refine ⟨s.dec.ctl.ovr, hstep.dec.trans ((if_pos hr).trans ?_)⟩
    exact Decoder.command_of_enc ((decode_unit v).trans henc) s.dec
  · have hno : (hostReg n).isDecoderInput = false := by
      cases hin : (hostReg n).isDecoderInput with
      | false => rfl
      | true => exact absurd (hb.symm.trans (hstep.noHazard n v rfl hin)) (by decide)
    obtain ⟨o, ho⟩ := s.dec.store_ovr hno v
    exact ⟨o, hstep.dec.trans ((if_neg hr).trans ho)⟩

/-- An agent step that spares a busy decoder and is no turn of it leaves all but its OVR alone, and the source. -/
theorem runEvent_dec_other {e : Event} {s t : State} (hspare : sparesUnit .dec e = true) (hb : s.dec.ctl.busy = true)
    (hother : ∀ a, e ≠ .decoder a) (h : runEvent e s = .next t) : (∃ o, t.dec = s.dec.withOvr o) ∧ s.HasTaken 0 t := by
  refine ⟨?_, hasTaken_of_sourceAfter_eq h (sourceAfter_of_not_turn hother s)⟩
  cases e with
  | decoder a => exact absurd rfl (hother a)
  | hostWrite n v => exact Decoder.after_hostWrite_busy hspare hb h
  | reset => exact absurd hspare Bool.false_ne_true
  | hostRead | hostPartial | encoder => exact ⟨s.dec.ctl.ovr, (runEvent_agentStep h).dec⟩

/-! ### The decode from its acceptance on -/

/-- `xs` is the input that the command `i` finds in the state `s`: what the source gives, or IBUF[0 .. L-1] (41_decoder
R152). -/
def State.GivesInput (i : Instr) (xs : List Byte) (s : State) : Prop :=
  if i.buffer then xs = bufferBytes s.dec.ibuf (effectiveLen s.dec.ilen) else SourceGives i.width s.source xs

theorem State.givesInput_buffer {i : Instr} {xs : List Byte} {s : State} (hbuf : i.buffer = true) :
    s.GivesInput i xs ↔ xs = bufferBytes s.dec.ibuf (effectiveLen s.dec.ilen) := by
  rw [State.GivesInput, if_pos hbuf]

theorem State.givesInput_stream {i : Instr} {xs : List Byte} {s : State} (hstream : i.buffer = false) :
    s.GivesInput i xs ↔ SourceGives i.width s.source xs := by
  rw [State.GivesInput, if_neg (by simp [hstream])]

/-- From the state `s`, in which the command `i` was accepted with input `xs`, its decode has come as far as byte `k`. -/
structure State.Decoding (i : Instr) (xs : List Byte) (s : State) (k : Nat) (t : State) : Prop where
  reading : t.dec.Reading i xs s.dec.result k
  taken : s.HasTaken (if i.buffer then 0 else k) t
  window : i.buffer = true → xs = bufferBytes t.dec.ibuf (effectiveLen t.dec.ilen)

/-- From the state `s`, in which the command `i` was accepted with input `xs`, its decode has ended, having taken the
responses its outcome needs (41_decoder R149, R152). -/
structure State.Decoded (i : Instr) (xs : List Byte) (s t : State) : Prop where
  reported : t.dec.Reported i xs s.dec.result
  taken : s.HasTaken (if i.buffer then 0 else responsesTaken (decodeWhole i.width i.buffer xs)) t

variable {i : Instr} {xs : List Byte} {s t u : State} {e : Event} {k : Nat}

/-- The state in which an idle decoder has accepted its command. -/
theorem State.Decoding.accepted (hin : s.GivesInput i xs) :
    s.Decoding i xs 0 { s with dec := decoderInit i.signed i.width i.buffer s.dec } where
  reading := .init i xs s.dec
  taken := by
    rw [ite_self]
    exact .zero rfl rfl
  window := fun hbuf => (State.givesInput_buffer hbuf).1 hin

/-- A step other than the decoder's own leaves the decode where it is. -/
theorem State.Decoding.withOvr (h : s.Decoding i xs k t) {o : Bool} (hdec : u.dec = t.dec.withOvr o)
    (htaken : t.HasTaken 0 u) : s.Decoding i xs k u where
  reading := by
    obtain ⟨hbusy, hsigned, hwidth, hbuffer, hcnt, hacc, hoff, hresult, hbelow, hrun, hinside⟩ := h.reading
    rw [hdec]
    exact ⟨hbusy, hsigned, hwidth, hbuffer, hcnt, hacc, hoff, hresult, hbelow, hrun, hinside⟩
  taken := h.taken.trans htaken
  window := by
    rw [hdec]
    exact h.window

/-- A step of the decoder on its input brings the decode one byte on, or ends it. -/
theorem State.Decoding.step (h : s.Decoding i xs k t) (hdec : u.dec = t.dec.inputStep i.buffer xs)
    (hkeeps : t.dec.Keeps u.dec) (htaken : t.HasTaken (if i.buffer then 0 else 1) u) :
    s.Decoding i xs (k + 1) u ∨ s.Decoded i xs u := by
  have htotal : s.HasTaken (if i.buffer then 0 else k + 1) u := by
    have := h.taken.trans htaken
    cases hbuf : i.buffer <;> simpa [hbuf] using this
  rcases h.reading.step with hreading | ⟨hreported, hresponses⟩
  · refine .inl ⟨hdec ▸ hreading, htotal, fun hbuf => ?_⟩
    rw [hkeeps.ibuf, hkeeps.ilen]
    exact h.window hbuf
  · exact .inr ⟨hdec ▸ hreported, hresponses ▸ htotal⟩

/-- A stream-mode step takes the response that stands at the decode's place (41_decoder R143). -/
theorem State.Decoding.sourceRead_eq (h : s.Decoding i xs k t) (hin : s.GivesInput i xs) (hstream : i.buffer = false) :
    sourceRead t = (responseAt xs t.dec.ctl.cnt.toNat, { t with source := t.source.drop 1 }) := by
  have hgives := (State.givesInput_stream hstream).1 hin
  have hsrc : t.source = responseAt xs k :: s.source.drop (k + 1) := by
    rw [h.taken.source, if_neg (by simp [hstream]), hgives.drop_eq h.reading.below h.reading.continued]
  rw [h.reading.cnt, sourceRead, hsrc]
  rfl

/-- An enabled turn of the decoder brings the decode one byte on, or ends it. -/
theorem State.Decoding.enabledTurn {a : Bool} (h : s.Decoding i xs k t) (hin : s.GivesInput i xs)
    (hon : runsDecoder i.buffer (.decoder a) = true) (hrun : runEvent (.decoder a) t = .next u) :
    s.Decoding i xs (k + 1) u ∨ s.Decoded i xs u := by
  have hkeeps : t.dec.Keeps u.dec := (runEvent_agentStep hrun).dec ▸ t.dec.turn_keeps a _
  have hmode := h.reading.buffer
  cases hbuf : i.buffer with
  | true =>
    obtain rfl := Host.Outcome.next.inj ((decoderTurn_buffer a h.reading.busy (hmode.trans hbuf)).symm.trans hrun)
    refine h.step ?_ hkeeps (by rw [hbuf]; exact .zero rfl rfl)
    rw [t.dec.bufferStep_eq, hbuf, ← h.window hbuf]
  | false =>
    obtain rfl : a = true := by simpa [runsDecoder, hbuf] using hon
    have hturn := decoderTurn_stream h.reading.busy (hmode.trans hbuf)
    rw [h.sourceRead_eq hin hbuf, t.dec.answer_responseAt] at hturn
    obtain rfl := Host.Outcome.next.inj (hturn.symm.trans hrun)
    exact h.step (by rw [hbuf]) hkeeps (by rw [hbuf]; exact ⟨rfl, rfl⟩)

/-- An agent step that spares the decoder brings the decode on by its enabled turns alone, or ends it. -/
theorem State.Decoding.agentStep (h : s.Decoding i xs k t) (hin : s.GivesInput i xs) (hspare : sparesUnit .dec e = true)
    (hrun : runEvent e t = .next u) :
    s.Decoding i xs (k + if runsDecoder i.buffer e then 1 else 0) u ∨ s.Decoded i xs u := by
  by_cases hturn : ∃ a, e = .decoder a
  · obtain ⟨a, rfl⟩ := hturn
    cases hon : runsDecoder i.buffer (.decoder a) with
    | true => exact h.enabledTurn hin hon hrun
    | false =>
      have hoff : t.dec.ctl.buffer = false ∧ a = false := by simpa [runsDecoder, ← h.reading.buffer] using hon
      obtain rfl := Host.Outcome.next.inj ((decoderTurn_stalled (.inr hoff)).symm.trans hrun)
      exact .inl h
  · have hother : ∀ a, e ≠ .decoder a := fun a ha => hturn ⟨a, ha⟩
    obtain ⟨⟨o, hdec⟩, htaken⟩ := runEvent_dec_other hspare h.reading.busy hother hrun
    have hoff : runsDecoder i.buffer e = false := by
      cases e with
      | decoder a => exact absurd rfl (hother a)
      | hostRead | hostWrite | hostPartial | encoder | reset => rfl
    rw [hoff]
    exact .inl (h.withOvr hdec htaken)

/-- Once ended, a decode stays so (20_memory R70). -/
theorem State.Decoded.agentStep (h : s.Decoded i xs t) (hspare : sparesUnit .dec e = true)
    (hrun : runEvent e t = .next u) : s.Decoded i xs u := by
  obtain ⟨hreports, hsigned, hwidth⟩ := h.reported
  have hidle := hreports.1
  obtain ⟨o, m, l, hdec⟩ :=
    runEvents_dec_idle (es := [e]) (runEvents_cons_next.2 ⟨u, hrun, rfl⟩) (by simpa using hspare) hidle
  refine ⟨?_, h.taken.trans (hasTaken_of_sourceAfter_eq hrun (sourceAfter_idle hidle e))⟩
  rw [hdec]
  exact ⟨hreports, hsigned, hwidth⟩

/-- Along any sequence of agent steps that spare the decoder, the decode is on by its enabled turns, or ended. -/
theorem State.Decoding.agentSteps (hin : s.GivesInput i xs) : ∀ {es : List Event} {k : Nat} {t u : State},
    s.Decoding i xs k t → (∀ e ∈ es, sparesUnit .dec e = true) → runEvents es t = .next u →
    s.Decoding i xs (k + decoderTurns i.buffer es) u ∨ s.Decoded i xs u
  | [], _, _, _, h, _, hrun => by
    obtain rfl := Host.Outcome.next.inj hrun
    exact .inl h
  | e :: es, k, t, u, h, hspare, hrun => by
    obtain ⟨v, hv, hrest⟩ := runEvents_cons_next.1 hrun
    obtain ⟨he, hes⟩ := List.forall_mem_cons.1 hspare
    rcases h.agentStep hin he hv with hgoing | hended
    · rw [decoderTurns, List.countP_cons, Nat.add_comm (List.countP _ es), ← Nat.add_assoc]
      exact State.Decoding.agentSteps hin hgoing hes hrest
    · exact .inr (runEvents_keeps (P := s.Decoded i xs) (fun _ _ _ hx hp hstep => hp.agentStep hx hstep) es hes hended hrest)

/-- With MAXB(W) enabled turns an issued VDEC command has ended (70_reset_and_hazards R239). -/
theorem decoded_of_decoderTurns {es : List Event} (hi : i.unit = .dec) (hidle : s.dec.ctl.busy = false)
    (hin : s.GivesInput i xs) (hspare : ∀ e ∈ es, sparesUnit .dec e = true)
    (hturns : maxBytes i.width ≤ decoderTurns i.buffer es) (hrun : runEvents (issue i :: es) s = .next t) :
    s.Decoded i xs t := by
  obtain ⟨u, hu, hrest⟩ := runEvents_cons_next.1 hrun
  rw [runEvent_issue, exec_dec_idle hi hidle] at hu
  obtain rfl := Host.Outcome.next.inj hu
  refine (State.Decoding.agentSteps hin (.accepted hin) hspare hrest).resolve_left fun hgoing => ?_
  have hbelow := hgoing.reading.below
  omega

end Sys2Proof.Machine
end

section
/-! A whole operation of the decoder: what a run of its turns, and of nothing else, leaves alone, and what it comes to. -/

namespace Sys2Proof.Machine

theorem Decoder.Keeps.trans {d d' d'' : Decoder} (h : d.Keeps d') (h' : d'.Keeps d'') : d.Keeps d'' :=
  ⟨h'.ibuf.trans h.ibuf, h'.ilen.trans h.ilen, h'.latched.trans h.latched⟩

/-- What the decoder's turns leave alone: all but the decoder and the source, and in the decoder what its operation only
reads (41_decoder R143, R144). -/
structure State.DecoderFrame (s t : State) : Prop where
  state : t = { s with dec := t.dec, source := t.source, sourcePos := t.sourcePos }
  keeps : s.dec.Keeps t.dec

theorem State.DecoderFrame.trans {s t u : State} (h : s.DecoderFrame t) (h' : t.DecoderFrame u) : s.DecoderFrame u := by
  refine ⟨?_, h.keeps.trans h'.keeps⟩
  rw [h'.state, h.state]

theorem decoderTurn_decoderFrame {a : Bool} {s t : State} (h : decoderTurn a s = .next t) : s.DecoderFrame t := by
  rw [decoderTurn_frame h, sourceAfter_frame]
  exact ⟨rfl, s.dec.turn_keeps a _⟩

/-- The run of `n` decoder turns. -/
def decoderRun (n : Nat) (a : Bool) : List Event := List.replicate n (.decoder a)

theorem decoderRun_spares {n : Nat} {a : Bool} : ∀ e ∈ decoderRun n a, sparesUnit .dec e = true := by
  intro e he
  rw [List.eq_of_mem_replicate he]
  rfl

theorem decoderTurns_decoderRun {n : Nat} {a buffer : Bool} (h : (buffer || a) = true) :
    decoderTurns buffer (decoderRun n a) = n := by
  simp [decoderTurns, decoderRun, List.countP_replicate, runsDecoder, h]

theorem runEvents_decoderRun_total (a : Bool) : ∀ (n : Nat) (s : State), ∃ t, runEvents (decoderRun n a) s = .next t
  | 0, s => ⟨s, rfl⟩
  | n + 1, s => by
    obtain ⟨u, hu⟩ := decoderTurn_total a s
    obtain ⟨t, ht⟩ := runEvents_decoderRun_total a n u
    exact ⟨t, runEvents_cons_next.2 ⟨u, hu, ht⟩⟩

theorem runEvents_decoderRun_frame {a : Bool} {n : Nat} {s t : State} (h : runEvents (decoderRun n a) s = .next t) :
    s.DecoderFrame t := by
  refine runEvents_keeps (P := s.DecoderFrame) (q := fun e => e = .decoder a) (fun e u v he hu hrun => ?_) _
    (fun e => List.eq_of_mem_replicate) ⟨rfl, rfl, rfl, rfl⟩ h
  subst he
  exact hu.trans (decoderTurn_decoderFrame hrun)

/-- A VDEC command issued to an idle decoder, with MAXB(W) enabled turns, ends with the outcome of the whole decode of its
input, and changes nothing but the decoder and the source (41_decoder R152). -/
theorem runEvents_issue_decoderRun {i : Instr} {s : State} {xs : List Byte} {a : Bool} (hi : i.unit = .dec)
    (hidle : s.dec.ctl.busy = false) (hon : (i.buffer || a) = true) (hin : s.GivesInput i xs) :
    ∃ t, runEvents (issue i :: decoderRun (maxBytes i.width) a) s = .next t ∧ s.Decoded i xs t
      ∧ t.dec.ibuf = s.dec.ibuf ∧ t.dec.ilen = s.dec.ilen ∧ t = { s with dec := t.dec, source := t.source } := by
  obtain ⟨t, ht⟩ := runEvents_decoderRun_total a (maxBytes i.width)
    { s with dec := decoderInit i.signed i.width i.buffer s.dec }
  have hrun := runEvents_cons_next.2 ⟨_, (runEvent_issue i s).trans (exec_dec_idle hi hidle), ht⟩
  have hdecoded := decoded_of_decoderTurns hi hidle hin decoderRun_spares (decoderTurns_decoderRun hon).ge hrun
  obtain ⟨hstate, hibuf, hilen, -⟩ := runEvents_decoderRun_frame ht
  refine ⟨t, hrun, hdecoded, hibuf, hilen, ?_⟩
  rw [hdecoded.taken.sourcePos] at hstate
  exact hstate

end Sys2Proof.Machine
end

section
/-! The obligations of 41_decoder on whole operations. -/

open Sys2Proof Sys2Proof.Machine

/-- Settles O47: each enabled turn brings the decode one byte on along its input or ends it, and nothing else does. -/
theorem decodeUnderEveryInterleaving : Obligations.DecodeUnderEveryInterleaving := by
  unfold Obligations.DecodeUnderEveryInterleaving
  intro i es s t xs hi hidle hspare hrun hturns hgives
  cases hbuf : i.buffer with
  | true =>
    obtain ⟨⟨hreports, hsigned, hwidth⟩, htaken⟩ :=
      decoded_of_decoderTurns hi hidle ((State.givesInput_buffer hbuf).2 rfl) hspare hturns hrun
    rw [hbuf] at hreports htaken
    exact ⟨hreports, hsigned, hwidth, htaken.source⟩
  | false =>
    obtain ⟨⟨hreports, hsigned, hwidth⟩, htaken⟩ :=
      decoded_of_decoderTurns hi hidle ((State.givesInput_stream hbuf).2 (hgives hbuf)) hspare hturns hrun
    rw [hbuf] at hreports htaken
    exact ⟨hreports, hsigned, hwidth, htaken.source⟩

/-- Settles O45: the run of the decoder's turns on what the source gives. -/
theorem streamDecodeWhole : Obligations.StreamDecodeWhole := by
  unfold Obligations.StreamDecodeWhole
  intro i s xs hi hbuf hidle hgives
  obtain ⟨t, hrun, ⟨⟨hreports, hsigned, hwidth⟩, htaken⟩, -, -, hstate⟩ :=
    runEvents_issue_decoderRun (a := true) hi hidle (Bool.or_true _) ((State.givesInput_stream hbuf).2 hgives)
  rw [hbuf] at hreports htaken
  exact ⟨t, hrun, hsigned, hwidth, hreports, htaken.source, hstate⟩

/-- Settles O46: the run of the decoder's turns on IBUF[0 .. L-1], which takes nothing from the source. -/
theorem bufferDecodeWhole : Obligations.BufferDecodeWhole := by
  unfold Obligations.BufferDecodeWhole
  intro i s a hi hbuf hidle
  obtain ⟨t, hrun, ⟨⟨hreports, hsigned, hwidth⟩, htaken⟩, hibuf, hilen, hstate⟩ :=
    runEvents_issue_decoderRun (a := a) hi hidle (by simp [hbuf]) ((State.givesInput_buffer hbuf).2 rfl)
  rw [hbuf] at hreports htaken
  have hsource : t.source = s.source := htaken.source
  rw [hsource] at hstate
  exact ⟨t, hrun, hsigned, hwidth, hreports, hibuf, hilen, hstate⟩

end

section
/-! The inverse zig-zag as integers, at every width, and as the inverse of zig-zag. -/

namespace Sys2Proof.Machine

/-- The arithmetic shift right by one with the sign bit it repeats taken out is the logical shift. -/
theorem sshiftRight_one_xor_sign {n : Nat} (r : BitVec n) :
    r.sshiftRight 1 ^^^ (r &&& BitVec.twoPow n (n - 1)) = r >>> 1 := by
  apply BitVec.eq_of_getLsbD_eq
  intro i hi
  rw [BitVec.getLsbD_xor, BitVec.getLsbD_sshiftRight, BitVec.getLsbD_and, BitVec.getLsbD_twoPow,
    BitVec.getLsbD_ushiftRight, BitVec.msb_eq_getLsbD_last]
  by_cases htop : n - 1 = i
  · have hover : n ≤ 1 + i := by omega
    simp [htop, hi, Nat.not_lt.2 hover, BitVec.getLsbD_of_ge _ _ hover]
  · have hin : 1 + i < n := by omega
    simp [htop, hi, hin]

/-- Shifted up by W - 1, only the lowest bit is left, and the arithmetic shift back spreads it (41_decoder R140). -/
theorem lowest_bit_spread {n : Nat} (r : BitVec n) :
    (r <<< (n - 1)).sshiftRight (n - 1) = if r.getLsbD 0 then BitVec.allOnes n else 0#n := by
  have hmsb : (r <<< (n - 1)).msb = r.getLsbD 0 := by
    cases n with
    | zero => simp [BitVec.eq_nil r]
    | succ n => simp [BitVec.msb_eq_getLsbD_last]
  rw [sshiftRight_width_sub_one, hmsb]

/-- The inverse zig-zag halves, and for an odd value complements (41_decoder R140). -/
theorem unzigzag_eq {n : Nat} (r : BitVec n) : unzigzag r = if r.getLsbD 0 then ~~~(r >>> 1) else r >>> 1 := by
  rw [unzigzag, lowest_bit_spread]
  cases r.getLsbD 0 with
  | false =>
    simp only [Bool.false_eq_true, if_false]
    rw [BitVec.zero_xor, sshiftRight_one_xor_sign]
  | true =>
    simp only [if_true]
    rw [BitVec.allOnes_xor, ← BitVec.not_sshiftRight, ← BitVec.not_xor_left, sshiftRight_one_xor_sign]

/-- The closed form of 41_decoder R140. -/
theorem unzigzag_closed_form {n : Nat} (r : BitVec n) : unzigzag r = (r >>> 1) ^^^ (0#n - (r &&& 1#n)) := by
  rw [unzigzag_eq, ← BitVec.twoPow_zero, BitVec.and_twoPow, BitVec.twoPow_zero]
  cases r.getLsbD 0 with
  | false => simp
  | true =>
    simp only [if_true]
    rw [BitVec.zero_sub, BitVec.neg_one_eq_allOnes, BitVec.xor_allOnes]

/-- Complementing a nonnegative signed number x gives -x - 1 (00_scope R10). -/
theorem toInt_not_of_msb {n : Nat} {x : BitVec n} (hn : 0 < n) (h : x.msb = false) :
    (~~~x).toInt = -(x.toNat : Int) - 1 := by
  have hhalf : 2 ^ n = 2 * 2 ^ (n - 1) := by rw [← Nat.pow_succ', Nat.succ_eq_add_one, Nat.sub_add_cancel hn]
  have hlow : x.toNat < 2 ^ (n - 1) := by simpa [h] using x.msb_eq_decide
  have hneg : (~~~x).msb = true := by simp [BitVec.msb_not, hn, h]
  rw [BitVec.toInt_eq_msb_cond, if_pos hneg, BitVec.toNat_not]
  omega

theorem getLsbD_zero_iff {n : Nat} (r : BitVec n) : r.getLsbD 0 = true ↔ r.toNat % 2 = 1 := by
  rw [BitVec.getLsbD, Nat.testBit_zero, decide_eq_true_iff]

/-- The inverse zig-zag as integers: r/2 for an even r, and -(r+1)/2 for an odd one (41_decoder R140). -/
theorem unzigzag_toInt {n : Nat} (r : BitVec n) (hn : 0 < n) :
    (unzigzag r).toInt = if r.toNat % 2 = 0 then (r.toNat : Int) / 2 else -(((r.toNat : Int) + 1) / 2) := by
  have hodd := getLsbD_zero_iff r
  have hmsb : (r >>> 1).msb = false := by simp [BitVec.msb_ushiftRight]
  have hhalf : (r >>> 1).toNat = r.toNat / 2 := by rw [BitVec.toNat_ushiftRight, Nat.shiftRight_eq_div_pow]
  rw [unzigzag_eq]
  cases hbit : r.getLsbD 0 with
  | false =>
    have heven : r.toNat % 2 = 0 := by simpa [hbit] using hodd
    rw [if_neg (by decide), if_pos heven, BitVec.toInt_eq_toNat_of_msb hmsb, hhalf]
    rfl
  | true =>
    have hone : r.toNat % 2 = 1 := hodd.1 hbit
    rw [if_pos rfl, if_neg (by omega), toInt_not_of_msb hn hmsb, hhalf]
    omega

theorem unzigzag_zigzag {n : Nat} (x : BitVec n) (hn : 0 < n) : unzigzag (zigzag x) = x := by
  have hz := zigzag_toNat x hn
  apply BitVec.toInt_inj.1
  rw [unzigzag_toInt _ hn]
  by_cases hx : 0 ≤ x.toInt
  · rw [if_pos hx] at hz
    rw [if_pos (by omega)]
    omega
  · rw [if_neg hx] at hz
    rw [if_neg (by omega)]
    omega

theorem zigzag_unzigzag {n : Nat} (r : BitVec n) (hn : 0 < n) : zigzag (unzigzag r) = r := by
  have hu := unzigzag_toInt r hn
  apply BitVec.eq_of_toNat_eq
  apply Int.ofNat_inj.1
  rw [zigzag_toNat _ hn]
  by_cases hr : r.toNat % 2 = 0
  · rw [if_pos hr] at hu
    rw [if_pos (by omega)]
    omega
  · rw [if_neg hr] at hu
    rw [if_neg (by omega)]
    omega

/-! ### DEC_RESULT -/

theorem decodedResult_unsigned (w : Width) (raw : Word) : decodedResult false w raw = keepWidth w raw := by
  cases w <;> rfl

/-- The signed result reads as the inverse zig-zag of the raw payload's W bits (41_decoder R148). -/
theorem decodedResult_signed_toInt (w : Width) (raw : Word) :
    (decodedResult true w raw).toInt = (unzigzag (raw.setWidth w.bits)).toInt := by
  cases w with
  | w32 => exact BitVec.toInt_signExtend_of_le (by decide)
  | w64 => exact congrArg (fun y => (unzigzag y).toInt) (BitVec.setWidth_eq raw).symm

/-- A command's operand, as the payload of the command of the same width and signedness, gives back ENC_VAL[W-1:0], extended
(41_decoder R155). -/
theorem decodedResult_encoderOperand (signed : Bool) (w : Width) (x : Word) :
    decodedResult signed w (encoderOperand signed w x) = extendWidth signed w x := by
  cases signed <;> cases w
  · simp [decodedResult, encoderOperand, extendWidth]
  · rfl
  · simp [decodedResult, encoderOperand, extendWidth, unzigzag_zigzag]
  · exact unzigzag_zigzag x (by decide)

end Sys2Proof.Machine
end

section
/-! Round trips: the decode of an encoding, and the host's copy of OBUF into IBUF. -/

namespace Sys2Proof.Machine

/-- The raw value of an encoding is the value, if it has W bits. -/
theorem rawOf_encodeUnsigned {w : Width} {v : Word} (h : v.toNat < 2 ^ w.bits) : rawOf w (encodeUnsigned v) = v := by
  rw [rawOf, varintValue_encodeUnsigned, Nat.mod_eq_of_lt h, BitVec.ofNat_toNat, BitVec.setWidth_eq]

/-- The whole decode of the encoding of a W-bit value is that value, from all the bytes (41_decoder R155). -/
theorem decodeWhole_encodeUnsigned {w : Width} {v : Word} (buffer : Bool) (h : v.toNat < 2 ^ w.bits) :
    decodeWhole w buffer (encodeUnsigned v) = .success v (encodeUnsigned v).length := by
  have hrun := contRun_encodeUnsigned v
  have hmax : (encodeUnsigned v).length ≤ maxBytes w := encodeUnsigned_length v ▸ encodedLen_le_maxBytes h
  rw [decodeWhole_terminator buffer (by omega) (by omega), hrun, List.take_length, rawOf_encodeUnsigned h]

/-- The decode of what the command `i` delivers, by the command `j` of the same width and signedness, reports the operand
extended and as many bytes as ENC_LEN says (41_decoder R155). -/
theorem Decoder.Reported.roundTrip {i j : Instr} {x r : Word} {d : Decoder} (hsigned : i.signed = j.signed)
    (hwidth : i.width = j.width) (h : d.Reported j (encodedBytes i.signed i.width x) r) :
    d.ctl.done = true ∧ d.ctl.err = .none ∧ d.result = extendWidth i.signed i.width x
      ∧ d.ctl.cnt = BitVec.ofNat 4 (encodedLen (encoderOperand i.signed i.width x)) := by
  obtain ⟨hreports, hs, hw⟩ := h
  rw [← hwidth, encodedBytes, decodeWhole_encodeUnsigned _ (encoderOperand_lt _ _ _)] at hreports
  obtain ⟨-, hdone, herr, hcnt, hresult⟩ := hreports
  refine ⟨hdone, herr, ?_, BitVec.eq_of_toNat_eq (hcnt.trans (toNat_ofNat_encodedLen _).symm)⟩
  rw [hresult, hs, hw, ← hsigned, ← hwidth, decodedResult_encoderOperand]

/-- The source gives an encoding, whatever follows it. -/
theorem sourceGives_encodeUnsigned (w : Width) (v : Word) (rest : List Response) :
    SourceGives w ((encodeUnsigned v).map .byte ++ rest) (encodeUnsigned v) := by
  have hrun := contRun_encodeUnsigned v
  refine ⟨?_, .inr (.inl (by omega))⟩
  rw [List.take_append_of_le_length (by simp), List.take_of_length_le (by simp)]

/-- Both registers of one buffer written to another copy it (20_memory R63). -/
theorem unpackBytes_packBytes_copy {m o : Mem} (hm : memWf m = true) (ho : memWf o = true) :
    unpackBytes (unpackBytes m 0 8 (packBytes o 0 8)) 8 2 (packBytes o 8 2) = o := by
  have hlow := memWf_unpackBytes 8 (base := 0) (packBytes o 0 8) hm
  have hboth := memWf_unpackBytes 2 (base := 8) (packBytes o 8 2) hlow
  refine mem_ext hboth ho fun k => ?_
  by_cases h8 : k < 8
  · have hin := readByte_unpackBytes_inside 8 (base := 0) (packBytes o 0 8) hm (by decide) h8
    rw [extractLsb'_packBytes o 0 h8 (by decide), Nat.zero_add] at hin
    rw [readByte_unpackBytes_outside 2 _ (.inl h8), hin]
  · by_cases h10 : k < 10
    · obtain ⟨j, rfl⟩ := Nat.exists_eq_add_of_le (Nat.not_lt.1 h8)
      have hj : j < 2 := by omega
      rw [readByte_unpackBytes_inside 2 _ hlow (by decide) hj, extractLsb'_packBytes o 8 hj (by decide)]
    · rw [readByte_beyond hboth (Nat.not_lt.1 h10), readByte_beyond ho (Nat.not_lt.1 h10)]

/-- A buffer that holds an encoding, with its length as DEC_ILEN, is that encoding as an input (41_decoder R144). -/
theorem bufferBytes_encodeUnsigned (v : Word) :
    bufferBytes (storeBytes [] 0#4 (encodeUnsigned v)) (effectiveLen (BitVec.ofNat 4 (encodedLen v)))
      = encodeUnsigned v := by
  rw [effectiveLen, toNat_ofNat_encodedLen, Nat.min_eq_left (encodeUnsigned_length_le_ten v)]
  exact bufferBytes_eq (readByte_storeBytes_encodeUnsigned v)

/-- The host's copy of OBUF and ENC_LEN into IBUF and DEC_ILEN (41_decoder R155). -/
def copyToDecoder (s : State) : List Event :=
  [.hostWrite 0x08#5 (readReg 0x04#5 s), .hostWrite 0x09#5 (readReg 0x05#5 s), .hostWrite 0x0A#5 (readReg 0x03#5 s)]

theorem runEvents_copyToDecoder {s : State} (hidle : s.dec.ctl.busy = false) (hibuf : memWf s.dec.ibuf = true)
    (hobuf : memWf s.enc.obuf = true) :
    runEvents (copyToDecoder s) s = .next { s with dec := { s.dec with ibuf := s.enc.obuf, ilen := s.enc.ctl.cnt } } := by
  have hlen : (s.enc.ctl.cnt.setWidth 64).extractLsb' 0 4 = s.enc.ctl.cnt := by
    rw [← BitVec.setWidth_eq_extractLsb' (by decide)]
    simp
  have hwrite : ∀ d : Decoder, ∀ t : State, t.dec.ctl.busy = false →
      writeDecoderInput d t = .next { t with dec := d } := fun d t ht => by simp [writeDecoderInput, ht]
  refine runEvents_cons_next.2 ⟨_, hwrite _ _ hidle, runEvents_cons_next.2 ⟨_, hwrite _ _ hidle,
    runEvents_cons_next.2 ⟨_, hwrite _ _ hidle, ?_⟩⟩⟩
  exact congrArg₂ (fun m l => Host.Outcome.next { s with dec := { s.dec with ibuf := m, ilen := l } })
    (unpackBytes_packBytes_copy hibuf hobuf) hlen

end Sys2Proof.Machine
end

section
/-! The obligations of 41_decoder on round trips, on the payload as a number, and on single turns. -/

open Sys2Proof Sys2Proof.Machine

/-- Settles O48: the encoding that the sink got is what the source gives, and its whole decode is the operand. -/
theorem streamRoundTrip : Obligations.StreamRoundTrip := by
  unfold Obligations.StreamRoundTrip
  intro i j s hi hj hsigned hwidth hibuf hjbuf hencIdle hdecIdle
  have henc := runEvents_issue_encoderRun (a := true) hi hencIdle (Bool.or_true _)
    (encodedLen_operand_le i.signed i.width s.encVal)
  refine ⟨s.encoded i, encodedBytes i.signed i.width s.encVal, henc, ?_, fun rest => ?_⟩
  · rw [State.encoded, hibuf]
    rfl
  · have hgives := sourceGives_encodeUnsigned j.width (encoderOperand i.signed i.width s.encVal) rest
    obtain ⟨u, hu, ⟨hreported, htaken⟩, -⟩ := runEvents_issue_decoderRun (a := true)
      (s := { s.encoded i with source := (encodedBytes i.signed i.width s.encVal).map .byte ++ rest }) hj hdecIdle
      (Bool.or_true _) ((State.givesInput_stream hjbuf).2 hgives)
    obtain ⟨hdone, herr, hresult, hcnt⟩ := Decoder.Reported.roundTrip hsigned hwidth hreported
    have hsource := htaken.source
    rw [hjbuf, ← hwidth, decodeWhole_encodeUnsigned _ (encoderOperand_lt _ _ _)] at hsource
    rw [← hwidth] at hu
    exact ⟨u, hu, hdone, herr, hresult, congrArg (BitVec.setWidth 64) hcnt,
      hsource.trans (by simp [responsesTaken, encodedBytes])⟩

/-- Settles O49: the host's copy makes IBUF[0 .. L-1] the encoding, and its whole decode is the operand. -/
theorem bufferRoundTrip : Obligations.BufferRoundTrip := by
  unfold Obligations.BufferRoundTrip
  intro i j s a b hi hj hsigned hwidth hibuf hjbuf hencIdle hdecIdle hwf
  have henc := runEvents_issue_encoderRun (a := a) hi hencIdle (by simp [hibuf])
    (encodedLen_operand_le i.signed i.width s.encVal)
  have hobuf : (s.encoded i).enc.obuf = storeBytes [] 0#4 (encodedBytes i.signed i.width s.encVal) := if_pos hibuf
  have hcopy := runEvents_copyToDecoder (s := s.encoded i) hdecIdle hwf (hobuf ▸ memWf_storeBytes _ _ memWf_nil)
  rw [hobuf] at hcopy
  obtain ⟨u, hu, ⟨hreported, -⟩, -⟩ := runEvents_issue_decoderRun (a := b) (xs := encodedBytes i.signed i.width s.encVal)
    (s := { s.encoded i with dec := { s.dec with
      ibuf := storeBytes [] 0#4 (encodedBytes i.signed i.width s.encVal), ilen := (s.encoded i).enc.ctl.cnt } })
    hj hdecIdle (by simp [hjbuf]) ((State.givesInput_buffer hjbuf).2 (bufferBytes_encodeUnsigned _).symm)
  obtain ⟨hdone, herr, hresult, hcnt⟩ := hreported.roundTrip hsigned hwidth
  rw [← hwidth] at hu
  have hrun : runEvents (copyToDecoder (s.encoded i) ++ issue j :: decoderRun (maxBytes i.width) b) (s.encoded i)
      = .next u := runEvents_append_next.2 ⟨_, hcopy, hu⟩
  exact ⟨s.encoded i, u, henc, hrun, hdone, herr, hresult,
    congrArg (BitVec.setWidth 64) hcnt⟩

/-- Settles O37, by the bit that the two shifts by W - 1 spread. -/
theorem unzigzagIntegers : Obligations.UnzigzagIntegers := by
  unfold Obligations.UnzigzagIntegers
  exact fun n r hn => ⟨unzigzag_toInt r hn, rfl, unzigzag_closed_form r⟩

/-- Settles O38, on the two functions as integers. -/
theorem zigzagInverse : Obligations.ZigzagInverse := by
  unfold Obligations.ZigzagInverse
  exact fun n x hn => ⟨unzigzag_zigzag x hn, zigzag_unzigzag x hn⟩

/-- Settles O39: a payload of W bits is its own low W bits. -/
theorem decodedResultIntegers : Obligations.DecodedResultIntegers := by
  unfold Obligations.DecodedResultIntegers
  intro w raw hraw
  refine ⟨?_, ?_⟩
  · rw [decodedResult_unsigned, keepWidth_toNat, Nat.mod_eq_of_lt hraw]
  · rw [decodedResult_signed_toInt, unzigzag_toInt _ w.bits_pos, BitVec.toNat_setWidth, Nat.mod_eq_of_lt hraw]

/-- Settles O43: the turn consumes the byte, and that continues. -/
theorem decoderContinues : Obligations.DecoderContinues := by
  unfold Obligations.DecoderContinues
  intro s u a x htakes hc hmax
  rw [runEvent, decoderTurn_of_takesByte htakes, Decoder.consume_continue ((contBit_iff x).2 hc) (count_ne_maxBytes hmax),
    ← accumulate_eq_ofNat]
  rfl

/-- Settles O44: the turn consumes the byte, and that completes the operation. -/
theorem decoderCompletes : Obligations.DecoderCompletes := by
  unfold Obligations.DecoderCompletes
  intro s u a last x htakes hend
  have hfinish : contBit x = false ∨ (s.dec.ctl.count.cnt.toNat ≠ maxBytes s.dec.ctl.width ∧ last = true) := by
    rcases hend with hlow | ⟨hlast, hmax⟩
    · exact .inl (Bool.eq_false_iff.2 fun hc => absurd ((contBit_iff x).1 hc) (Nat.not_le.2 hlow))
    · exact .inr ⟨count_ne_maxBytes hmax, hlast⟩
  rw [runEvent, decoderTurn_of_takesByte htakes, Decoder.consume_finish hfinish, ← accumulate_eq_ofNat]
  rfl

/-- Settles O40: the turn is a function of what SourceRead answers. -/
theorem emptySourceAnswersFreely : Obligations.EmptySourceAnswersFreely := by
  unfold Obligations.EmptySourceAnswersFreely
  intro s hb hm hempty
  exact (decoderTurn_stream_congr hb hm (sourceRead_free hempty).symm rfl).symm

end

section
/-! What a CMD write to a busy or an idle unit leaves, and what can clear OVR. -/

namespace Sys2Proof.Machine

theorem addressedUnit_enc {v : Word} (h : v.getLsbD 3 = false) : addressedUnit v = .enc :=
  if_neg (Bool.eq_false_iff.1 h)

theorem addressedUnit_dec {v : Word} (h : v.getLsbD 3 = true) : addressedUnit v = .dec := if_pos h

/-! ### The busy unit (60_exceptions R204) -/

/-- A busy encoder drops every word that is its own, legal or not. -/
theorem Encoder.command_dropped {c : Decoded} {d : Encoder} (hc : decodedUnit c = .enc) (hb : d.ctl.busy = true)
    (x : Word) : d.command c x = d.withOvr true := by
  match c with
  | .legal i =>
    have hi : i.unit ≠ .dec := ne_of_eq_of_ne hc (by decide)
    rw [Encoder.command, if_neg hi, if_pos hb]
    rfl
  | .illegalCmd .enc =>
    rw [Encoder.command, if_pos hb]
    rfl

/-- A busy decoder drops every word that is its own, legal or not. -/
theorem Decoder.command_dropped {c : Decoded} {d : Decoder} (hc : decodedUnit c = .dec) (hb : d.ctl.busy = true) :
    d.command c = d.withOvr true := by
  match c with
  | .legal i =>
    have hi : i.unit ≠ .enc := ne_of_eq_of_ne hc (by decide)
    rw [Decoder.command, if_neg hi, if_pos hb]
    rfl
  | .illegalCmd .dec =>
    rw [Decoder.command, if_pos hb]
    rfl

theorem cmdWrite_enc_busy {v : Word} {s : State} (hv : addressedUnit v = .enc) (hb : s.enc.ctl.busy = true) :
    cmdWrite v s = .next { s with enc := s.enc.withOvr true } := by
  have hunit := (decode_unit v).trans hv
  rw [cmdWrite_eq, Encoder.command_dropped hunit hb, Decoder.command_of_enc hunit]

theorem cmdWrite_dec_busy {v : Word} {s : State} (hv : addressedUnit v = .dec) (hb : s.dec.ctl.busy = true) :
    cmdWrite v s = .next { s with dec := s.dec.withOvr true } := by
  have hunit := (decode_unit v).trans hv
  rw [cmdWrite_eq, Decoder.command_dropped hunit hb, Encoder.command_of_dec hunit]

/-! ### The idle unit and an illegal word (60_exceptions R203) -/

theorem cmdWrite_illegal {v : Word} (hv : 16 ≤ v.toNat) (s : State) :
    cmdWrite v s = .next (issueIllegal (addressedUnit v) s) := by
  rw [cmdWrite, decode_illegal_of_ge hv]

theorem issueIllegal_enc_idle {s : State} (h : s.enc.ctl.busy = false) :
    issueIllegal .enc s = { s with enc := { s.enc with ctl := s.enc.ctl.illegal } } := by
  simp [issueIllegal, h]

theorem issueIllegal_dec_idle {s : State} (h : s.dec.ctl.busy = false) :
    issueIllegal .dec s = { s with dec := { s.dec with ctl := s.dec.ctl.illegal } } := by
  simp [issueIllegal, h]

/-! ### OVR (10_state R27, 60_exceptions R204) -/

theorem eq_of_hostReg_encStatus : ∀ {n : RegNo}, hostReg n = .encStatus → n = 0x02#5 := by decide

theorem eq_of_hostReg_decStatus : ∀ {n : RegNo}, hostReg n = .decStatus → n = 0x0B#5 := by decide

/-- A CMD write, accepted, dropped or illegal, keeps OVR set. -/
theorem Encoder.command_keeps_ovr {d : Encoder} (h : d.ctl.ovr = true) (c : Decoded) (x : Word) :
    (d.command c x).ctl.ovr = true := by
  match c with
  | .legal i =>
    simp only [Encoder.command]
    split
    · exact h
    · split
      · rfl
      · exact h
  | .illegalCmd .enc =>
    simp only [Encoder.command]
    split
    · rfl
    · exact h
  | .illegalCmd .dec => exact h

theorem Decoder.command_keeps_ovr {d : Decoder} (h : d.ctl.ovr = true) (c : Decoded) : (d.command c).ctl.ovr = true := by
  match c with
  | .legal i =>
    simp only [Decoder.command]
    split
    · exact h
    · split
      · rfl
      · exact h
  | .illegalCmd .dec =>
    simp only [Decoder.command]
    split
    · rfl
    · exact h
  | .illegalCmd .enc => exact h

/-- A STATUS write keeps OVR set unless bit 4 of the value is 1. -/
theorem Control.statusWrite_keeps_ovr {c : Control} (h : c.ovr = true) (v : Word) :
    (c.statusWrite v).ovr = true ∨ v.getLsbD 4 = true := by
  rw [Control.statusWrite_eq]
  cases hv : v.getLsbD 4 with
  | false => simp [h]
  | true => exact .inr rfl

/-- Only a write of 1 to bit 4 of its STATUS, or reset, clears a set OVR of the encoder. -/
theorem Encoder.after_ovr {d : Encoder} (h : d.ctl.ovr = true) (e : Event) (x : Word) :
    (d.after e x).ctl.ovr = true ∨ e = .reset ∨ ∃ v : Word, e = .hostWrite 0x02#5 v ∧ v.getLsbD 4 = true := by
  cases e with
  | hostWrite n v =>
    simp only [Encoder.after]
    split
    · exact .inl (Encoder.command_keeps_ovr h _ _)
    · cases hr : hostReg n with
      | encStatus =>
        obtain rfl := eq_of_hostReg_encStatus hr
        exact (Control.statusWrite_keeps_ovr h v).imp_right fun hbit => .inr ⟨v, rfl, hbit⟩
      | cmd | encVal | encLen | encObufLo | encObufHi | decIbufLo | decIbufHi | decIlen | decStatus | decLen | decResult
      | reserved => exact .inl h
  | encoder a => exact .inl ((Control.fields_of_latched (d.turn_latched a)).1.trans h)
  | reset => exact .inr (.inl rfl)
  | hostRead | hostPartial | decoder => exact .inl h

/-- Only a write of 1 to bit 4 of its STATUS, or reset, clears a set OVR of the decoder. -/
theorem Decoder.after_ovr {d : Decoder} (h : d.ctl.ovr = true) (e : Event) (r : Response) :
    (d.after e r).ctl.ovr = true ∨ e = .reset ∨ ∃ v : Word, e = .hostWrite 0x0B#5 v ∧ v.getLsbD 4 = true := by
  cases e with
  | hostWrite n v =>
    simp only [Decoder.after]
    split
    · exact .inl (Decoder.command_keeps_ovr h _)
    · cases hr : hostReg n with
      | decStatus =>
        obtain rfl := eq_of_hostReg_decStatus hr
        exact (Control.statusWrite_keeps_ovr h v).imp_right fun hbit => .inr ⟨v, rfl, hbit⟩
      | cmd | encVal | encStatus | encLen | encObufLo | encObufHi | decIbufLo | decIbufHi | decIlen | decLen | decResult
      | reserved => exact .inl h
  | decoder a => exact .inl ((Control.fields_of_latched (d.turn_keeps a r).latched).1.trans h)
  | reset => exact .inr (.inl rfl)
  | hostRead | hostPartial | encoder => exact .inl h

end Sys2Proof.Machine
end

section
/-! What stops the block: the hazard, a partial access, and nothing else (60_exceptions R214). -/

namespace Sys2Proof.Machine

theorem hostReg_isDecoderInput : ∀ n : RegNo, (hostReg n).isDecoderInput = true ↔ 8 ≤ n.toNat ∧ n.toNat ≤ 10 := by
  decide

/-- A host write to a decoder-input register while the decoder is busy is the fault (70_reset_and_hazards R234). -/
theorem writeReg_hazard {n : RegNo} {s : State} (hin : (hostReg n).isDecoderInput = true) (hb : s.dec.ctl.busy = true)
    (v : Word) : writeReg n v s = .fault .hazardIbufWriteWhileBusy := by
  unfold writeReg storeReg
  cases hr : hostReg n <;> rw [hr] at hin
  case decIbufLo | decIbufHi | decIlen => simp [writeDecoderInput, hb]
  all_goals exact absurd hin Bool.false_ne_true

/-- A host write that is not the hazard has a next state. -/
theorem writeReg_total {n : RegNo} {s : State} (h : ¬ ((hostReg n).isDecoderInput = true ∧ s.dec.ctl.busy = true))
    (v : Word) : ∃ t, writeReg n v s = .next t := by
  unfold writeReg storeReg
  cases hr : hostReg n
  case cmd => exact cmdWrite_total v s
  case decIbufLo | decIbufHi | decIlen =>
    have hidle : s.dec.ctl.busy = false := by simpa [hr, HostReg.isDecoderInput] using h
    simp [writeDecoderInput, hidle]
  all_goals exact ⟨_, rfl⟩

/-- An agent step is the hazard, a partial access, or has a next state. -/
theorem runEvent_cases (e : Event) (s : State) :
    (s.dec.ctl.busy = true ∧ (∃ n v, e = .hostWrite n v ∧ (hostReg n).isDecoderInput = true)
      ∧ runEvent e s = .fault .hazardIbufWriteWhileBusy) ∨
    ((∃ p, e = .hostPartial p) ∧ runEvent e s = .refused .refusedPartialAccess) ∨
    ∃ t, runEvent e s = .next t := by
  cases e with
  | hostWrite n v =>
    by_cases h : (hostReg n).isDecoderInput = true ∧ s.dec.ctl.busy = true
    · exact .inl ⟨h.2, ⟨n, v, rfl, h.1⟩, writeReg_hazard h.1 h.2 v⟩
    · exact .inr (.inr (writeReg_total h v))
  | hostPartial p => exact .inr (.inl ⟨⟨p, rfl⟩, rfl⟩)
  | encoder a => exact .inr (.inr (encoderTurn_total a s))
  | decoder a => exact .inr (.inr (decoderTurn_total a s))
  | hostRead | reset => exact .inr (.inr ⟨_, rfl⟩)

theorem runEvent_fault_iff {e : Event} {s : State} {f : Fault} :
    runEvent e s = .fault f ↔ f = .hazardIbufWriteWhileBusy ∧ s.dec.ctl.busy = true
      ∧ ∃ n v, e = .hostWrite n v ∧ 8 ≤ n.toNat ∧ n.toNat ≤ 10 := by
  constructor
  · intro hrun
    rcases runEvent_cases e s with ⟨hb, ⟨n, v, he, hin⟩, -⟩ | ⟨-, hrefused⟩ | ⟨t, hnext⟩
    · cases f
      exact ⟨rfl, hb, n, v, he, (hostReg_isDecoderInput n).1 hin⟩
    · exact nomatch hrun.symm.trans hrefused
    · exact nomatch hrun.symm.trans hnext
  · rintro ⟨rfl, hb, n, v, rfl, hrange⟩
    exact writeReg_hazard ((hostReg_isDecoderInput n).2 hrange) hb v

theorem runEvent_refused_iff {e : Event} {s : State} {r : Refusal} :
    runEvent e s = .refused r ↔ r = .refusedPartialAccess ∧ ∃ p, e = .hostPartial p := by
  constructor
  · intro hrun
    rcases runEvent_cases e s with ⟨-, -, hfault⟩ | ⟨hpartial, hrefused⟩ | ⟨t, hnext⟩
    · exact nomatch hrun.symm.trans hfault
    · exact ⟨Host.Outcome.refused.inj (hrun.symm.trans hrefused), hpartial⟩
    · exact nomatch hrun.symm.trans hnext
  · rintro ⟨rfl, p, rfl⟩
    rfl

/-- A run that has stopped stays stopped, as it was, whatever steps would come after (log entry 14). -/
theorem runEvents_append_of_stopped {later : List Event} : ∀ {es : List Event} {s : State},
    (∀ t, runEvents es s ≠ .next t) → runEvents (es ++ later) s = runEvents es s
  | [], s, hstop => absurd rfl (hstop s)
  | e :: es, s, hstop => by
    rw [List.cons_append, runEvents, runEvents]
    cases hu : runEvent e s with
    | next u =>
      exact runEvents_append_of_stopped fun t ht => hstop t (runEvents_cons_next.2 ⟨u, hu, ht⟩)
    | fault f => rfl
    | refused r => rfl

end Sys2Proof.Machine
end

section
/-! The decoder's two error completions (60_exceptions R201, R202, R205). -/

namespace Sys2Proof.Machine

theorem sourceRead_cons {s : State} {r : Response} {rest : List Response} (h : s.source = r :: rest) :
    sourceRead s = (r, { s with source := rest }) := by
  rw [sourceRead, h]

theorem Decoder.bufferStep_endOfInput {d : Decoder} (h : effectiveLen d.ilen ≤ d.ctl.cnt.toNat) :
    d.bufferStep = d.fail .endOfInput := if_pos h

/-- The counter stands at MAXB(W) after the MAXB(W)-th byte. -/
theorem count_eq_maxBytes {d : Decoder} (h : d.ctl.cnt.toNat + 1 = maxBytes d.ctl.width) :
    d.ctl.count.cnt.toNat = maxBytes d.ctl.width := by
  rw [Control.count_cnt_toNat (by omega), h]

/-- The bound is tested before the last-byte rule (41_decoder R150): `last` does not matter. -/
theorem Decoder.consume_malformed {d : Decoder} {x : Byte} (hc : contBit x = true)
    (hmax : d.ctl.count.cnt.toNat = maxBytes d.ctl.width) (last : Bool) :
    d.consume x last = { d with ctl := d.ctl.count.complete .malformedVarint } := by
  rcases d.consume_cases x last with ⟨-, -, heq⟩ | ⟨-, hne, -⟩ | ⟨hlow | ⟨hne, -⟩, -⟩
  · exact heq
  · exact absurd hmax hne
  · exact absurd hc (Bool.eq_false_iff.1 hlow)
  · exact absurd hmax hne

end Sys2Proof.Machine
end

section
/-! The obligations of 60_exceptions. -/

open Sys2Proof Sys2Proof.Machine

/-- Settles O52, from the three ways an agent step can go and by induction along the stopped run. -/
theorem onlyTheHazardFaults : Obligations.OnlyTheHazardFaults := by
  unfold Obligations.OnlyTheHazardFaults
  refine ⟨fun e s => ⟨fun f => runEvent_fault_iff, fun r => runEvent_refused_iff⟩, fun es later s => ⟨?_, ?_⟩⟩
  · intro f hrun
    rw [runEvents_append_of_stopped (by simp [hrun]), hrun]
  · intro r hrun
    rw [runEvents_append_of_stopped (by simp [hrun]), hrun]

/-- Settles O6: a busy unit drops every word that is its own, and OVR is followed through what an agent step makes of each
unit. -/
theorem busyCommandDroppedAndOvrSticky : Obligations.BusyCommandDroppedAndOvrSticky := by
  unfold Obligations.BusyCommandDroppedAndOvrSticky
  refine ⟨fun v s hv hb => cmdWrite_enc_busy (addressedUnit_enc hv) hb,
    fun v s hv hb => cmdWrite_dec_busy (addressedUnit_dec hv) hb, fun e s t hrun => ?_⟩
  have hstep := runEvent_agentStep hrun
  rw [hstep.enc, hstep.dec]
  exact ⟨fun hovr => Encoder.after_ovr hovr e _, fun hovr => Decoder.after_ovr hovr e _⟩

/-- Settles O7: a word of 16 or more is illegal, and the idle unit that its bit 3 names reports it. -/
theorem illegalCommandReported : Obligations.IllegalCommandReported := by
  unfold Obligations.IllegalCommandReported
  refine fun v s hv => ⟨fun hunit hidle => ?_, fun hunit hidle => ?_⟩
  · rw [runEvent_hostWrite_cmd, cmdWrite_illegal hv, addressedUnit_enc hunit, issueIllegal_enc_idle hidle]
    rfl
  · rw [runEvent_hostWrite_cmd, cmdWrite_illegal hv, addressedUnit_dec hunit, issueIllegal_dec_idle hidle]
    rfl

/-- Settles O41: end-of-input from the source, or the effective length reached, fails the decoder and nothing else. -/
theorem decoderEndOfInput : Obligations.DecoderEndOfInput := by
  unfold Obligations.DecoderEndOfInput
  refine fun s hb => ⟨fun rest hm hsrc => ?_, fun a hm hlen => ?_⟩
  · rw [runEvent, decoderTurn_stream hb hm, sourceRead_cons hsrc]
    rfl
  · rw [runEvent, decoderTurn_buffer a hb hm, Decoder.bufferStep_endOfInput hlen]
    rfl

/-- Settles O42: the turn consumes the byte, and that is over the bound. -/
theorem decoderMalformed : Obligations.DecoderMalformed := by
  unfold Obligations.DecoderMalformed
  intro s u a last x htakes hc hmax
  rw [runEvent, decoderTurn_of_takesByte htakes, Decoder.consume_malformed ((contBit_iff x).2 hc) (count_eq_maxBytes hmax)]
  rfl

end

section
/-! How a unit's operation ends (70_reset_and_hazards section 4): every agent step ends it or leaves the unit busy, and every
enabled turn that leaves the unit busy counts its byte counter up towards MAXB(W). -/

namespace Sys2Proof.Machine

/-! ### Going on and ending, in the control part that both units have -/

/-- The operation goes on, with `k` more bytes counted. -/
structure Control.GoesOn (k : Nat) (c c' : Control) : Prop where
  busy : c'.busy = true
  buffer : c'.buffer = c.buffer
  width : c'.width = c.width
  cnt : c'.cnt.toNat = c.cnt.toNat + k

/-- The operation is complete (10_state R27). -/
def Control.Completed (c : Control) : Prop := c.busy = false ∧ c.done = true

/-- The operation is over: the unit is idle, with DONE = 1 unless the step `e` was reset (70_reset_and_hazards R241). -/
def Control.EndedBy (e : Event) (c : Control) : Prop := c.busy = false ∧ (e = .reset ∨ c.done = true)

theorem Control.Completed.endedBy {c : Control} (h : c.Completed) (e : Event) : c.EndedBy e := ⟨h.1, .inr h.2⟩

theorem Control.GoesOn.trans {j k : Nat} {c c' c'' : Control} (h : c.GoesOn j c') (h' : c'.GoesOn k c'') :
    c.GoesOn (j + k) c'' :=
  ⟨h'.busy, h'.buffer.trans h.buffer, h'.width.trans h.width, by rw [h'.cnt, h.cnt, Nat.add_assoc]⟩

/-! ### One agent step at a busy encoder -/

/-- A busy encoder drops its own commands and does not see the decoder's (60_exceptions R204). -/
theorem Encoder.command_of_busy {d : Encoder} (hb : d.ctl.busy = true) (c : Decoded) (x : Word) :
    ∃ o, d.command c x = d.withOvr o := by
  cases hc : decodedUnit c with
  | enc => exact ⟨true, Encoder.command_dropped hc hb x⟩
  | dec => exact ⟨d.ctl.ovr, Encoder.command_of_dec hc x d⟩

theorem Encoder.hostWrite_of_busy {d : Encoder} (hb : d.ctl.busy = true) (n : RegNo) (v x : Word) :
    ∃ o, d.after (.hostWrite n v) x = d.withOvr o := by
  simp only [Encoder.after]
  split
  · exact Encoder.command_of_busy hb _ x
  · exact d.store_ovr _ v

theorem Encoder.emit_goesOn_or_completes {d : Encoder} (hb : d.ctl.busy = true)
    (hcnt : d.ctl.cnt.toNat < maxBytes d.ctl.width) : d.ctl.GoesOn 1 d.emit.ctl ∨ d.emit.ctl.Completed := by
  rw [Encoder.emit_ctl]
  split
  · exact .inl ⟨hb, rfl, rfl, Control.count_cnt_toNat hcnt⟩
  · exact .inr ⟨rfl, rfl⟩

theorem Encoder.after_goesOn_or_ends {d : Encoder} (hb : d.ctl.busy = true)
    (hcnt : d.ctl.cnt.toNat < maxBytes d.ctl.width) (e : Event) (x : Word) :
    d.ctl.GoesOn (if runsEncoder d.ctl.buffer e then 1 else 0) (d.after e x).ctl ∨ (d.after e x).ctl.EndedBy e := by
  cases e with
  | hostWrite n v =>
    obtain ⟨o, ho⟩ := Encoder.hostWrite_of_busy hb n v x
    exact .inl (ho ▸ ⟨hb, rfl, rfl, rfl⟩)
  | encoder a =>
    rcases d.turn_cases a with ⟨-, hon, heq⟩ | ⟨hoff, heq⟩
    · have hrun : runsEncoder d.ctl.buffer (.encoder a) = true := by simpa [runsEncoder] using hon
      rw [Encoder.after, heq, if_pos hrun]
      exact (Encoder.emit_goesOn_or_completes hb hcnt).imp_right fun hend => hend.endedBy _
    · have hstall : runsEncoder d.ctl.buffer (.encoder a) = false := by simpa [runsEncoder, hb] using hoff
      rw [Encoder.after, heq, hstall]
      exact .inl ⟨hb, rfl, rfl, rfl⟩
  | reset => exact .inr ⟨rfl, .inl rfl⟩
  | hostRead | hostPartial | decoder => exact .inl ⟨hb, rfl, rfl, rfl⟩

/-! ### One agent step at a busy decoder -/

/-- A busy decoder drops its own commands and does not see the encoder's (60_exceptions R204). -/
theorem Decoder.command_of_busy {d : Decoder} (hb : d.ctl.busy = true) (c : Decoded) :
    ∃ o, d.command c = d.withOvr o := by
  cases hc : decodedUnit c with
  | enc => exact ⟨d.ctl.ovr, Decoder.command_of_enc hc d⟩
  | dec => exact ⟨true, Decoder.command_dropped hc hb⟩

theorem Decoder.hostWrite_of_busy {d : Decoder} (hb : d.ctl.busy = true) (n : RegNo) (v : Word) (r : Response) :
    ∃ o m l, d.after (.hostWrite n v) r = d.withOvrInput o m l := by
  simp only [Decoder.after]
  split
  · obtain ⟨o, ho⟩ := Decoder.command_of_busy hb (decode v)
    exact ⟨o, d.ibuf, d.ilen, ho⟩
  · exact d.store_ovrInput _ v

/-- A consumed byte is counted, and it is a continuation or the operation's last (41_decoder R145 to R148). -/
theorem Decoder.consume_goesOn_or_completes {d : Decoder} (hb : d.ctl.busy = true)
    (hcnt : d.ctl.cnt.toNat < maxBytes d.ctl.width) (x : Byte) (last : Bool) :
    d.ctl.GoesOn 1 (d.consume x last).ctl ∨ (d.consume x last).ctl.Completed := by
  rcases d.consume_cases x last with ⟨-, -, heq⟩ | ⟨-, -, -, heq⟩ | ⟨-, heq⟩
  · exact .inr (heq ▸ ⟨rfl, rfl⟩)
  · exact .inl (heq ▸ ⟨hb, rfl, rfl, Control.count_cnt_toNat hcnt⟩)
  · exact .inr (heq ▸ ⟨rfl, rfl⟩)

theorem Decoder.answer_goesOn_or_completes {d : Decoder} (hb : d.ctl.busy = true)
    (hcnt : d.ctl.cnt.toNat < maxBytes d.ctl.width) (r : Response) :
    d.ctl.GoesOn 1 (d.answer r).ctl ∨ (d.answer r).ctl.Completed := by
  cases r with
  | eoi => exact .inr ⟨rfl, rfl⟩
  | byte x => exact Decoder.consume_goesOn_or_completes hb hcnt x false

theorem Decoder.bufferStep_goesOn_or_completes {d : Decoder} (hb : d.ctl.busy = true)
    (hcnt : d.ctl.cnt.toNat < maxBytes d.ctl.width) :
    d.ctl.GoesOn 1 d.bufferStep.ctl ∨ d.bufferStep.ctl.Completed := by
  unfold Decoder.bufferStep
  split
  · exact .inr ⟨rfl, rfl⟩
  · exact Decoder.consume_goesOn_or_completes hb hcnt _ _

theorem Decoder.turn_goesOn_or_completes {d : Decoder} (hb : d.ctl.busy = true)
    (hcnt : d.ctl.cnt.toNat < maxBytes d.ctl.width) (a : Bool) (r : Response) :
    d.ctl.GoesOn (if runsDecoder d.ctl.buffer (.decoder a) then 1 else 0) (d.turn a r).ctl
      ∨ (d.turn a r).ctl.Completed := by
  cases hm : d.ctl.buffer with
  | true =>
    simpa [Decoder.turn, Decoder.takesResponse, runsDecoder, hb, hm] using Decoder.bufferStep_goesOn_or_completes hb hcnt
  | false =>
    cases a with
    | true =>
      simpa [Decoder.turn, Decoder.takesResponse, runsDecoder, hb, hm] using Decoder.answer_goesOn_or_completes hb hcnt r
    | false =>
      have hstall : d.turn false r = d := by simp [Decoder.turn, Decoder.takesResponse, hm]
      exact .inl (hstall.symm ▸ ⟨hb, rfl, rfl, rfl⟩)

theorem Decoder.after_goesOn_or_ends {d : Decoder} (hb : d.ctl.busy = true)
    (hcnt : d.ctl.cnt.toNat < maxBytes d.ctl.width) (e : Event) (r : Response) :
    d.ctl.GoesOn (if runsDecoder d.ctl.buffer e then 1 else 0) (d.after e r).ctl ∨ (d.after e r).ctl.EndedBy e := by
  cases e with
  | hostWrite n v =>
    obtain ⟨o, m, l, heq⟩ := Decoder.hostWrite_of_busy hb n v r
    exact .inl (heq ▸ ⟨hb, rfl, rfl, rfl⟩)
  | decoder a => exact (Decoder.turn_goesOn_or_completes hb hcnt a r).imp_right fun hend => hend.endedBy _
  | reset => exact .inr ⟨rfl, .inl rfl⟩
  | hostRead | hostPartial | encoder => exact .inl ⟨hb, rfl, rfl, rfl⟩

/-! ### Either unit of the machine -/

/-- The control part of the unit `u`. -/
def State.ctl (u : UnitId) (s : State) : Control :=
  match u with
  | .enc => s.enc.ctl
  | .dec => s.dec.ctl

/-- A turn in which the unit `u`, busy in this mode, has an enabled step. -/
def runsUnit (u : UnitId) (buffer : Bool) (e : Event) : Bool :=
  match u with
  | .enc => runsEncoder buffer e
  | .dec => runsDecoder buffer e

/-- A busy unit has counted fewer than MAXB(W) bytes (10_state R40). -/
theorem State.Inv.cnt_lt {s : State} (h : s.Inv) {u : UnitId} (hb : (s.ctl u).busy = true) :
    (s.ctl u).cnt.toNat < maxBytes (s.ctl u).width := by
  obtain ⟨⟨-, -, -, -, -, henc, -⟩, ⟨-, -, -, -, -, hdec, -⟩⟩ := h
  cases u with
  | enc => exact henc hb
  | dec => exact hdec hb

/-- An agent step at a busy unit ends its operation or lets it go on, an enabled turn with one more byte counted. -/
theorem runEvent_goesOn_or_ends {u : UnitId} {e : Event} {s t : State} (hinv : s.Inv) (hb : (s.ctl u).busy = true)
    (hrun : runEvent e s = .next t) :
    (s.ctl u).GoesOn (if runsUnit u (s.ctl u).buffer e then 1 else 0) (t.ctl u) ∨ (t.ctl u).EndedBy e := by
  have hstep := runEvent_agentStep hrun
  have hcnt := hinv.cnt_lt hb
  cases u with
  | enc =>
    simp only [State.ctl, hstep.enc]
    exact Encoder.after_goesOn_or_ends hb hcnt e _
  | dec =>
    simp only [State.ctl, hstep.dec]
    exact Decoder.after_goesOn_or_ends hb hcnt e _

/-! ### Finite sequences: at most MAXB(W) - cnt enabled turns (70_reset_and_hazards R239) -/

/-- What spares a unit whose operation is complete leaves it complete. -/
theorem runEvents_keeps_completed {u : UnitId} {es : List Event} {s t : State} (hspare : ∀ e ∈ es, sparesUnit u e = true)
    (hrun : runEvents es s = .next t) (h : (s.ctl u).Completed) : (t.ctl u).Completed := by
  obtain ⟨hidle, hdone⟩ := h
  cases u with
  | enc =>
    obtain ⟨o, henc⟩ := runEvents_enc_idle hrun hspare hidle
    rw [State.ctl, henc]
    exact ⟨hidle, hdone⟩
  | dec =>
    obtain ⟨o, m, l, hdec⟩ := runEvents_dec_idle hrun hspare hidle
    rw [State.ctl, hdec]
    exact ⟨hidle, hdone⟩

/-- After steps that spare a busy unit its operation is complete, or it has counted a byte in each enabled turn. -/
theorem runEvents_goesOn_or_completes {u : UnitId} : ∀ {es : List Event} {s t : State}, s.Inv → (s.ctl u).busy = true →
    (∀ e ∈ es, sparesUnit u e = true) → runEvents es s = .next t →
    (s.ctl u).GoesOn (es.countP (runsUnit u (s.ctl u).buffer)) (t.ctl u) ∨ (t.ctl u).Completed
  | [], s, t, _, hb, _, hrun => by
    obtain rfl := Host.Outcome.next.inj hrun
    exact .inl ⟨hb, rfl, rfl, rfl⟩
  | e :: es, s, t, hinv, hb, hspare, hrun => by
    obtain ⟨v, hv, hrest⟩ := runEvents_cons_next.1 hrun
    obtain ⟨he, hes⟩ := List.forall_mem_cons.1 hspare
    rcases runEvent_goesOn_or_ends hinv hb hv with hgo | ⟨hidle, hend⟩
    · refine (runEvents_goesOn_or_completes (runEvent_inv hinv hv) hgo.busy hes hrest).imp_left fun hgo' => ?_
      rw [hgo.buffer] at hgo'
      rw [List.countP_cons, Nat.add_comm]
      exact hgo.trans hgo'
    · have hdone : (v.ctl u).done = true := hend.resolve_left fun hreset => by
        rw [hreset] at he
        exact Bool.false_ne_true he
      exact .inr (runEvents_keeps_completed hes hrest ⟨hidle, hdone⟩)

theorem runEvents_inv {es : List Event} {s t : State} (hinv : s.Inv) (hrun : runEvents es s = .next t) : t.Inv :=
  runEvents_keeps (P := State.Inv) (q := fun _ => True) (fun _ _ _ _ hu h => runEvent_inv hu h) es
    (fun _ _ => trivial) hinv hrun

/-- With MAXB(W) - cnt enabled turns taken the operation is complete: a busy unit would have counted MAXB(W) bytes. -/
theorem runEvents_completed_of_turns {u : UnitId} {es : List Event} {s t : State} (hinv : s.Inv)
    (hrun : runEvents es s = .next t) (hspare : ∀ e ∈ es, sparesUnit u e = true) (hb : (s.ctl u).busy = true)
    (hturns : maxBytes (s.ctl u).width - (s.ctl u).cnt.toNat ≤ es.countP (runsUnit u (s.ctl u).buffer)) :
    (t.ctl u).Completed := by
  rcases runEvents_goesOn_or_completes hinv hb hspare hrun with hgo | hdone
  · have hlt := (runEvents_inv hinv hrun).cnt_lt hgo.busy
    rw [hgo.cnt, hgo.width] at hlt
    omega
  · exact hdone

/-! ### Infinite runs (70_reset_and_hazards R240) -/

/-- A sequence that never falls and rises again and again passes every bound. -/
theorem exists_le_of_rises {f : Nat → Nat} {n : Nat} (hmono : ∀ m, n ≤ m → f m ≤ f (m + 1))
    (hrise : ∀ m, n ≤ m → ∃ m', m ≤ m' ∧ f m' < f (m' + 1)) : ∀ k, ∃ m, n ≤ m ∧ k ≤ f m
  | 0 => ⟨n, le_refl n, Nat.zero_le _⟩
  | k + 1 => by
    obtain ⟨m, hm, hk⟩ := exists_le_of_rises hmono hrise k
    obtain ⟨m', hm', hlt⟩ := hrise m hm
    have hle : f m ≤ f m' := Nat.rel_of_forall_rel_succ_of_le_of_le (· ≤ ·) hmono hm hm'
    exact ⟨m' + 1, by omega, by omega⟩

/-- Weak fairness of the unit `u` (70_reset_and_hazards R240). -/
def UnitFair (u : UnitId) (sched : Nat → Event) (path : Nat → State) : Prop :=
  ∀ n, (∀ m, n ≤ m → ((path m).ctl u).busy = true) →
    ∃ m, n ≤ m ∧ runsUnit u ((path m).ctl u).buffer (sched m) = true

theorem path_inv {sched : Nat → Event} {path : Nat → State} (hinv : (path 0).Inv) (hrun : FollowsSchedule sched path) :
    ∀ n, (path n).Inv
  | 0 => hinv
  | n + 1 => runEvent_inv (path_inv hinv hrun n) (hrun n)

/-- Along a run fair to it a busy unit's operation ends: else the unit stays busy, is given enabled turns again and again,
and counts past MAXB(W). -/
theorem exists_ended_of_fair {u : UnitId} {sched : Nat → Event} {path : Nat → State} (hinv : (path 0).Inv)
    (hrun : FollowsSchedule sched path) (hfair : UnitFair u sched path) {n : Nat} (hb : ((path n).ctl u).busy = true) :
    ∃ m, n ≤ m ∧ ((path (m + 1)).ctl u).EndedBy (sched m) := by
  by_contra hnever
  have hnext : ∀ m, n ≤ m → ((path m).ctl u).busy = true →
      ((path m).ctl u).GoesOn (if runsUnit u ((path m).ctl u).buffer (sched m) then 1 else 0) ((path (m + 1)).ctl u) :=
    fun m hm hbusy => (runEvent_goesOn_or_ends (path_inv hinv hrun m) hbusy (hrun m)).resolve_right
      fun hend => hnever ⟨m, hm, hend⟩
  have hbusy : ∀ m, n ≤ m → ((path m).ctl u).busy = true :=
    fun m hm => Nat.le_induction hb (fun k hk hbk => (hnext k hk hbk).busy) m hm
  have hcnt := fun m hm => (hnext m hm (hbusy m hm)).cnt
  obtain ⟨m, hm, hten⟩ := exists_le_of_rises (f := fun m => ((path m).ctl u).cnt.toNat) (n := n)
    (fun m hm => by simp only [hcnt m hm, Nat.le_add_right])
    (fun m hm => by
      obtain ⟨m', hm', hturn⟩ := hfair m fun k hk => hbusy k (hm.trans hk)
      exact ⟨m', hm', by simp only [hcnt m' (hm.trans hm'), hturn, if_true, Nat.lt_succ_self]⟩)
    10
  have hlt := (path_inv hinv hrun m).cnt_lt (hbusy m hm)
  have hmax := maxBytes_le_ten ((path m).ctl u).width
  omega

end Sys2Proof.Machine
end

section
/-! The obligations of 70_reset_and_hazards. -/

open Sys2Proof Sys2Proof.Machine

/-- Settles O53: each enabled turn that does not complete the operation counts a byte, and the invariant leaves room for
fewer than MAXB(W) of them. -/
theorem operationsEndWithinMaxBytes : Obligations.OperationsEndWithinMaxBytes := by
  unfold Obligations.OperationsEndWithinMaxBytes
  exact fun es s t hinv hrun =>
    ⟨runEvents_completed_of_turns (u := .enc) hinv hrun, runEvents_completed_of_turns (u := .dec) hinv hrun⟩

/-- Settles O54: an operation that never ended would count past MAXB(W) in the turns that fairness gives it. -/
theorem operationsEndUnderFairness : Obligations.OperationsEndUnderFairness := by
  unfold Obligations.OperationsEndUnderFairness
  exact fun sched path hinv hrun =>
    ⟨fun hfair n hb => exists_ended_of_fair (u := .enc) hinv hrun hfair hb,
      fun hfair n hb => exists_ended_of_fair (u := .dec) hinv hrun hfair hb⟩

/-- Settles O19: registers 0x08 to 0x0A are the decoder's input registers, whose writes the busy decoder makes the fault. -/
theorem hazardFault : Obligations.HazardFault := by
  unfold Obligations.HazardFault
  exact fun n v s hlo hhi hb => writeReg_hazard ((hostReg_isDecoderInput n).2 ⟨hlo, hhi⟩) hb v

/-- Settles O22: the step leaves both units as `Encoder.reset` and `Decoder.reset`, and it keeps the sink and the source. -/
theorem resetStep : Obligations.ResetStep := by
  unfold Obligations.ResetStep
  intro s
  refine ⟨resetBlock s, rfl, ?enc, ?dec, resetBlock_sink s, resetBlock_source s, resetBlock_sourcePos s⟩
  case enc =>
    rw [resetBlock_enc, resetBlock_encVal]
    exact ⟨rfl, rfl, rfl, rfl, rfl, rfl, rfl, rfl, rfl, fun _ => rfl, rfl⟩
  case dec =>
    rw [resetBlock_dec]
    exact ⟨rfl, rfl, rfl, rfl, rfl, rfl, rfl, rfl, rfl, rfl, fun _ => rfl, rfl, rfl⟩

end
